-- ==== Sys2Proof/Word.lean ====
section
/-! DEFINITION. The two value types of the block: a stack entry (32 bits, `WORD_W`) and a byte of memory, an opcode byte or
an audio sample (8 bits, `SAMPLE_W`); `00_scope.md` R6, R8. -/

namespace Sys2Proof

/-- One stack entry: an unsigned integer of `WORD_W` = 32 bits (R6, R16). -/
abbrev Word := BitVec 32

/-- One byte: an opcode byte, an audio sample, the button mask (R6, R33, R67). -/
abbrev Byte := BitVec 8

end Sys2Proof
end

