-- ==== Sys2Proof/Config.lean ====
section
/-! DEFINITION. The parameters of the block: the numbers the source states, as constants (`00_scope.md` R6), and the
parameters it leaves open, as one record (R7) that a machine carries unchanged and that claims quantify over (log 1). -/

namespace Sys2Proof

/-- `MAX_PROGRAM_LEN` (R6): bytes of program memory. -/
def maxProgramLen : Nat := 1024

/-- `SCALE` (R6): output samples per stored source sample. -/
def scale : Nat := 5

/-- `SILENCE` (R6): the mid-scale sample. -/
def silence : Byte := 0x80#8

/-- `N_CLIPS` (R6): slots of the clip table. -/
abbrev nClips : Nat := 32

/-- `N_BUTTONS` (R6): strum, five frets, modulation lever. -/
abbrev nButtons : Nat := 7

/-- `N_OPCODES` (R6): 16 literals, 2 time counters, 10 binary operators, 2 stack operators, `END`. -/
def nOpcodes : Nat := 31

/-- `DEBOUNCE_PROG` (R6): the value of `DEBOUNCE_CYCLES` during programming, which is also its reset value (R43). -/
def debounceProg : Byte := 100#8

/-- `DEBOUNCE_PLAY` (R6): the value of `DEBOUNCE_CYCLES` during play and idle. -/
def debouncePlay : Byte := 10#8

/-- The open parameters of R7. They are fixed for the life of the hardware (R44). -/
structure Config where
  /-- `STACK_CAP`: entries of the evaluation stack, at least 1 (R16, decision D3). -/
  stackCap : Nat
  /-- `enc`: the byte of each of the 31 opcodes, in the order of R3 (R70, R77, decision D34). -/
  enc : List Byte
  /-- `BUFFER_SIZE`: bytes one `fillSample` call fills, at least 1 (R42, decision D20). -/
  bufferSize : Nat
  /-- `CLIP_ADDR_W`: width of a clip base address (R47, decision D19). -/
  clipAddrW : Nat
  /-- The number of bytes of `CLIPMEM`, which R48 and R54 leave to the platform. That they lie at the addresses from 0 on,
  where R54 leaves their place to the platform too, is a DESIGN CHOICE of the model (log 31). -/
  clipMemSize : Nat
  /-- `WHAMMY_BIT`: the bit of the button mask that holds the modulation lever (R33, decision D23). -/
  whammyBit : Nat
  deriving DecidableEq, Repr

end Sys2Proof
end

