-- ==== Sys2Proof/Syntax.lean ====
section
/-! DEFINITION. The instructions of the BytebeatVM: one constructor per row of `spec/opcode_table.json`
(`00_scope.md` R3, `30_encoding.md` R70, R72). -/

namespace Sys2Proof

/-- One decoded opcode byte. The sixteen literals are one row with the nibble `n` (R69). The four rows of undefined bytes
carry the bits their pattern leaves open (R72); under the map of R70 the row `UNDEF_1F` has the one byte `0x1F` (log 3). -/
inductive Instr where
  /-- `LIT n` (R92). -/
  | lit (n : BitVec 4)
  /-- `T` (R93). -/
  | t
  /-- `U` (R94). -/
  | u
  /-- `AND` (R96). -/
  | and
  /-- `OR` (R97). -/
  | or
  /-- `XOR` (R98). -/
  | xor
  /-- `ADD` (R99). -/
  | add
  /-- `SUB` (R100). -/
  | sub
  /-- `MUL` (R101). -/
  | mul
  /-- `DIV` (R102). -/
  | div
  /-- `MOD` (R103). -/
  | mod
  /-- `SHL` (R104). -/
  | shl
  /-- `SHR` (R105). -/
  | shr
  /-- `SWP` (R110). -/
  | swp
  /-- `DUP` (R111). -/
  | dup
  /-- `END` (R112). -/
  | endOp
  /-- An undefined byte `000x_xxxx`: row `UNDEF_1F` (R113). -/
  | undef1F (x : BitVec 5)
  /-- An undefined byte `001x_xxxx`: row `UNDEF_20_3F` (R113). -/
  | undef20 (x : BitVec 5)
  /-- An undefined byte `01xx_xxxx`: row `UNDEF_40_7F` (R113). -/
  | undef40 (x : BitVec 6)
  /-- An undefined byte `1xxx_xxxx`: row `UNDEF_80_FF` (R113). -/
  | undef80 (x : BitVec 7)
  deriving DecidableEq, Repr

/-- The 31 opcodes in the order in which R3 lists them: the sixteen literals, `T`, `U`, the ten binary operators, `SWP`,
`DUP`, `END`. A map `enc` gives the byte of each in this order (R77). -/
def opcodes : List Instr :=
  [.lit 0, .lit 1, .lit 2, .lit 3, .lit 4, .lit 5, .lit 6, .lit 7,
   .lit 8, .lit 9, .lit 10, .lit 11, .lit 12, .lit 13, .lit 14, .lit 15,
   .t, .u, .and, .or, .xor, .add, .sub, .mul, .div, .mod, .shl, .shr, .swp, .dup, .endOp]

/-- The byte of an undefined-byte instruction: its row's fixed bits over the bits it carries (R72); `none` for one of the 31
opcodes, whose byte the map `enc` gives. -/
def Instr.undefinedByte : Instr → Option Byte
  | .undef1F x => some (0#3 ++ x)
  | .undef20 x => some (1#3 ++ x)
  | .undef40 x => some (1#2 ++ x)
  | .undef80 x => some (1#1 ++ x)
  | .lit _ | .t | .u | .and | .or | .xor | .add | .sub | .mul | .div | .mod | .shl | .shr | .swp | .dup | .endOp => none

end Sys2Proof
end

