-- ==== Sys2Proof/WellFormed.lean ====
section
/-! DEFINITION. When an encoding map, a configuration and an instruction are well formed (`00_scope.md` R7,
`30_encoding.md` R72, R77). -/

namespace Sys2Proof

/-- An encoding map is well formed when it is an injective map of the 31 opcodes to bytes (R77). -/
def encWf (enc : List Byte) : Bool :=
  decide (enc.length = nOpcodes) && decide enc.Nodup

/-- The limits R7, R33 and R45 put on the open parameters: a capacity and a buffer of at least one entry, an injective
map, a clip memory inside its address width, and the lever's bit the highest used bit of an 8-bit mask. -/
def Config.wf (c : Config) : Bool :=
  decide (1 ≤ c.stackCap) && encWf c.enc && decide (1 ≤ c.bufferSize)
    && decide (c.clipMemSize ≤ 2 ^ c.clipAddrW) && decide (6 ≤ c.whammyBit) && decide (c.whammyBit < 8)

/-- An instruction is well formed under a map: one of the 31 opcodes always is (the nibble of a literal cannot leave its
range), and an undefined byte is one outside the image of the map (R72, R77). -/
def Instr.wfFor (enc : List Byte) (i : Instr) : Bool :=
  match i.undefinedByte with
  | none => true
  | some b => !enc.contains b

end Sys2Proof
end

