-- ==== Sys2Proof/Decode.lean ====
section
/-! DEFINITION. The decoder and the encoder of the one-byte instructions (`30_encoding.md` R67 to R74), both written over an
encoding map (R77), the default map of R70, and the opcode table's masks and patterns. -/

namespace Sys2Proof

/-- The map `enc` of R70: `LIT n` is the byte `0x00 + n`, and `T` to `END` are `0x10` to `0x1E` in the order of R3
(decisions D1, D2; log 2). -/
def defaultEnc : List Byte :=
  [0x00, 0x01, 0x02, 0x03, 0x04, 0x05, 0x06, 0x07, 0x08, 0x09, 0x0A, 0x0B, 0x0C, 0x0D, 0x0E, 0x0F,
   0x10, 0x11, 0x12, 0x13, 0x14, 0x15, 0x16, 0x17, 0x18, 0x19, 0x1A, 0x1B, 0x1C, 0x1D, 0x1E]

/-- The opcode a map gives a byte: the first pair whose byte it is. -/
def opcodeOf : List Byte → List Instr → Byte → Option Instr
  | e :: es, i :: is, b => if e = b then some i else opcodeOf es is b
  | _, _, _ => none

/-- The byte a map gives an opcode: the first pair whose opcode it is. -/
def byteOf : List Byte → List Instr → Instr → Option Byte
  | e :: es, i :: is, j => if i = j then some e else byteOf es is j
  | _, _, _ => none

/-- The row of undefined bytes that a byte belongs to (the four patterns of R72; log 3). -/
def undefinedOf (b : Byte) : Instr :=
  if b.getLsbD 7 then .undef80 (b.extractLsb' 0 7)
  else if b.getLsbD 6 then .undef40 (b.extractLsb' 0 6)
  else if b.getLsbD 5 then .undef20 (b.extractLsb' 0 5)
  else .undef1F (b.extractLsb' 0 5)

/-- Decoding is total: a byte in the image of the map is its opcode, every other byte is undefined (R71, R72). -/
def decodeWith (enc : List Byte) (b : Byte) : Instr :=
  match opcodeOf enc opcodes b with
  | some i => i
  | none => undefinedOf b

/-- Why no instruction can be read from a list of bytes. -/
inductive DecodeError where
  /-- There is no byte left: the only way in which decoding can fail (R71). -/
  | noByte
  deriving DecidableEq, Repr

/-- Decoding at the head of a list of bytes: one byte is one whole instruction (R67, R74), and the rest is given back. -/
def decodeBytes (enc : List Byte) : List Byte → Except DecodeError (Instr × List Byte)
  | [] => .error .noByte
  | b :: rest => .ok (decodeWith enc b, rest)

/-- The byte of an instruction under a map: an undefined byte is itself, an opcode is looked up; `none` where the map gives
that opcode no byte, which a well-formed map never does. -/
def encodeWith (enc : List Byte) (i : Instr) : Option Byte :=
  match i.undefinedByte with
  | some b => some b
  | none => byteOf enc opcodes i

/-- The words of an instruction under the map of R70: the one byte it has (R67). -/
def encode (i : Instr) : List Byte :=
  (encodeWith defaultEnc i).toList

/-- One row of `spec/opcode_table.json`: a byte belongs to it when `byte & mask = pattern` (R70). -/
structure Row where
  mask : Byte
  pattern : Byte
  deriving DecidableEq, Repr

/-- A byte selects a row (R70). -/
def Row.selects (r : Row) (b : Byte) : Bool := b &&& r.mask = r.pattern

/-- The row of `spec/opcode_table.json` each constructor stands for (R70, R72). -/
def Instr.row : Instr → Row
  | .lit _ => { mask := 0xF0, pattern := 0x00 }
  | .t => { mask := 0xFF, pattern := 0x10 }
  | .u => { mask := 0xFF, pattern := 0x11 }
  | .and => { mask := 0xFF, pattern := 0x12 }
  | .or => { mask := 0xFF, pattern := 0x13 }
  | .xor => { mask := 0xFF, pattern := 0x14 }
  | .add => { mask := 0xFF, pattern := 0x15 }
  | .sub => { mask := 0xFF, pattern := 0x16 }
  | .mul => { mask := 0xFF, pattern := 0x17 }
  | .div => { mask := 0xFF, pattern := 0x18 }
  | .mod => { mask := 0xFF, pattern := 0x19 }
  | .shl => { mask := 0xFF, pattern := 0x1A }
  | .shr => { mask := 0xFF, pattern := 0x1B }
  | .swp => { mask := 0xFF, pattern := 0x1C }
  | .dup => { mask := 0xFF, pattern := 0x1D }
  | .endOp => { mask := 0xFF, pattern := 0x1E }
  | .undef1F _ => { mask := 0xFF, pattern := 0x1F }
  | .undef20 _ => { mask := 0xE0, pattern := 0x20 }
  | .undef40 _ => { mask := 0xC0, pattern := 0x40 }
  | .undef80 _ => { mask := 0x80, pattern := 0x80 }

/-- The twenty rows of `spec/opcode_table.json`, in its order. -/
def tableRows : List Row :=
  [.lit 0, .t, .u, .and, .or, .xor, .add, .sub, .mul, .div, .mod, .shl, .shr, .swp, .dup, .endOp,
   .undef1F 31, .undef20 0, .undef40 0, .undef80 0].map Instr.row

/-- The bytes of a table word of `nbits` bits, the lowest first, followed by the zero byte that stands for every bit above
them: an instruction is one byte (R67), so the decoder reads the first. -/
def tableBytes (nbits w : Nat) : List Byte := [BitVec.ofNat 8 (w % 2 ^ nbits)]

/-- The instruction the decoder reads, under the map of R70, from an instruction whose bits are `w` as
`spec/opcode_table.json` numbers them. -/
def decodeTableWord (nbits w : Nat) : Option Instr :=
  match decodeBytes defaultEnc (tableBytes nbits w) with
  | .ok (i, _) => some i
  | .error _ => none

end Sys2Proof
end

