-- ==== Sys2Proof/Machine/State.lean ====
section
/-! DEFINITION. The state of the three units, their memories and the events of the host (`10_state.md`, `20_memory.md`,
`00_scope.md` R13), the reasons a step can stop, and the state after reset (R43). All of it is plain data. -/

namespace Sys2Proof.Machine

/-- A byte-addressed memory: the cells that differ from what an unlisted address reads as, addresses strictly rising
(`Memory.wf` of `Machine/Ops.lean` says so; log 8). -/
structure Memory where
  cells : List Host.Cell
  deriving DecidableEq, Repr

/-- A record of the clip table: `ClipBase` and `ClipLen` (R47). -/
structure ClipSlot where
  base : Nat
  len : BitVec 32
  deriving DecidableEq, Repr

/-- What the BytebeatVM holds during one run, and only then (R15). -/
structure Run where
  /-- The program offset of the next opcode byte (R20). -/
  pc : BitVec 11
  /-- The entries in use, the top first: `S[sp-1]` is the head and `sp` the length (R16, R17, R18; log 16). -/
  stack : List Word
  /-- The first time input as latched by `vm_reset` (R22). -/
  t32 : Word
  /-- The second time input as latched by `vm_reset` (R22). -/
  u32 : Word
  /-- The program-length bound of the run (R23). -/
  plen : BitVec 11
  /-- `END` has been decoded: stop (a) of R85. -/
  stopped : Bool
  deriving DecidableEq, Repr

/-- The registers of the ClipPlayer (R26, R27, R28). -/
structure ClipPlayer where
  pos : BitVec 32
  frac : Fin 5
  last : Byte
  deriving DecidableEq, Repr

/-- The registers of the debouncer: `DEBOUNCE_CYCLES` (R31) and the seven release counters `cnt` (R32). -/
structure Debouncer where
  cycles : Byte
  cnt : Vector Byte nButtons
  deriving DecidableEq, Repr

/-- The registers of the quadrature decoder: the four histories (R34, R35), bit 0 the newest sample, the settled levels
(R36), and the accumulator `delta` (R37). -/
structure Decoder where
  hA32 : BitVec 32
  hB32 : BitVec 32
  hA8 : BitVec 8
  hB8 : BitVec 8
  sA : Bool
  sB : Bool
  delta : BitVec 32
  deriving DecidableEq, Repr

/-- The step an `encoder_poll` emits (R8, R136): -1, 0 or +1. -/
inductive EncoderStep where
  | minus
  | zero
  | plus
  deriving DecidableEq, Repr

/-- Who issues an event (R156): the producer context, the foreground context, or the host at boot, which is before both. -/
inductive Context where
  | producer
  | foreground
  | boot
  deriving DecidableEq, Repr

/-- The events of R13 with their arguments, and the boot-time writes of the clip table and clip memory (R170). -/
inductive Event where
  /-- `evaluate` with the bound and the two 64-bit time arguments (R22, R23, R79). -/
  | evaluate (plen : BitVec 11) (t u : BitVec 64)
  /-- `fillSample(k)` (R30, R121). -/
  | fillSample (k : BitVec 8)
  /-- `button_poll(raw)`: bit `i` of `raw` is line `raw[i]`, 1 for pressed (R50, R128). -/
  | buttonPoll (raw : BitVec 7)
  /-- `readButtons()` (R130). -/
  | readButtons
  /-- `setDebounce(v)` (R131). -/
  | setDebounce (v : Byte)
  /-- `encoder_poll(a, b)`: true for high (R50, R135). -/
  | encoderPoll (a b : Bool)
  /-- `readEncoderDelta()` (R142). -/
  | readEncoderDelta
  /-- The host's write of one byte of `PROG`; offsets are 10 bits (R46, R60). -/
  | writeProg (offset : BitVec 10) (v : Byte)
  /-- The host's boot-time write of one record of `CLIPTAB` (R47, R170). -/
  | writeSlot (slot : BitVec 5) (base : Nat) (len : BitVec 32)
  /-- The host's boot-time write of one byte of `CLIPMEM` (R48, R170). -/
  | writeClip (addr : Nat) (v : Byte)
  /-- The one power-on `reset` (R167). -/
  | reset
  deriving DecidableEq, Repr

/-- What an event returns to the host (R38; log 6). -/
inductive Reply where
  /-- The result of an `evaluate` (R24). -/
  | result (sample : Byte)
  /-- The completion flag of a `fillSample` (R29). -/
  | filled (done : Bool)
  /-- The button mask of a `readButtons` (R33). -/
  | mask (m : Byte)
  /-- The step an `encoder_poll` returned (R136). -/
  | polled (st : EncoderStep)
  /-- The value a `readEncoderDelta` returned (R142). -/
  | delta (v : BitVec 32)
  deriving DecidableEq, Repr

/-- Why the machine stops with a fault. The hardware has none (R147); these two mark an access to an address the spec says
does not exist, which R64 and R66 say cannot arise. -/
inductive Fault where
  /-- Raised by the fetch of `step` at an offset outside the 1024 bytes of `PROG`. Safe: R64 excludes it, and no state that
  meets the invariant reaches it (log 13). -/
  | progOutside (offset : Nat)
  /-- Raised by the sample reads of `fillSample` at an address outside `CLIPMEM`. Safe: R66 excludes it, and no state that
  meets the invariant reaches it (log 12). -/
  | clipOutside (addr : Nat)
  deriving DecidableEq, Repr

/-- Why a step is refused: a host that breaks a duty of R171 ("a model refuses the launch"; log 10). No opcode executed
inside a run is refused. -/
inductive Refusal where
  /-- Raised by an arm of `exec` whose instruction has no meaning yet: none. Safe. -/
  | notModelled (mnemonic : String)
  /-- Raised by a meaning applied to a state with no run in progress, where the VM holds nothing an opcode could act on
  (R15); `step` never does that. Safe (log 15). -/
  | noRun
  /-- Raised by any event but `reset` before the `reset` event: duty HD1. Safe. -/
  | eventBeforeReset
  /-- Raised by a second `reset`: duty HD1, "There is no warm reset" (R167). Safe. -/
  | secondReset
  /-- Raised by an event issued from a context that R156 does not give it: duties HD7, HD8. Safe. -/
  | wrongContext
  /-- Raised by an `evaluate` whose bound exceeds `MAX_PROGRAM_LEN`: duty HD4. Safe. -/
  | plenTooLarge
  /-- Raised by a write of the clip table or clip memory after the first `fillSample`: duty HD2. Safe. -/
  | clipsAlreadyFixed
  /-- Raised by a boot-time write that describes or reaches bytes outside `CLIPMEM` (R66), or whose base is no
  `CLIP_ADDR_W`-bit address (R47). Safe (log 12), for a memory at address 0 (log 31). -/
  | clipNotReadable
  /-- Raised by a `fillSample` of a slot the host never populated: duty HD2 (R170). Safe (log 9). -/
  | slotNotPopulated
  deriving DecidableEq, Repr

/-- The whole machine. -/
structure State where
  /-- The parameters, fixed for the life of the hardware (R44; log 1). -/
  cfg : Config
  /-- The run of the VM in progress, if there is one (R15; log 15). -/
  run : Option Run
  /-- The ClipPlayer. -/
  clip : ClipPlayer
  /-- The debouncer. -/
  deb : Debouncer
  /-- The quadrature decoder. -/
  dec : Decoder
  /-- `PROG`, offsets 0 to 1023 (R46). -/
  prog : Memory
  /-- `CLIPTAB`: a slot the host has not populated holds no record (R43, R47; log 9). -/
  clipTab : Vector (Option ClipSlot) nClips
  /-- `CLIPMEM` (R48). -/
  clipMem : Memory
  /-- `OUTBUF`, indices 0 to `BUFFER_SIZE - 1` (R49). -/
  outBuf : Memory
  /-- The `reset` event has happened (HD1; log 10). -/
  resetDone : Bool
  /-- A `fillSample` has been issued, so the clips are read-only (HD2, R173; log 10). -/
  clipsFixed : Bool
  /-- The events the host issues, oldest first, in the interleaving order of R56 (log 5). -/
  pending : List (Context × Event)
  /-- The values events have returned, newest first (log 6). -/
  replies : List Reply
  deriving DecidableEq, Repr

/-- The ClipPlayer after reset, which is also its state after a completion (R43, R118). -/
def ClipPlayer.atReset : ClipPlayer := { pos := 0, frac := 0, last := silence }

/-- The debouncer after reset (R43). -/
def Debouncer.atReset : Debouncer := { cycles := debounceProg, cnt := Vector.replicate nButtons 0#8 }

/-- The quadrature decoder after reset (R43). -/
def Decoder.atReset : Decoder :=
  { hA32 := 0, hB32 := 0, hA8 := 0, hB8 := 0, sA := false, sB := false, delta := 0 }

/-- The defaults of R7 and the map of R70. -/
def defaultConfig : Config :=
  { stackCap := 16, enc := defaultEnc, bufferSize := 64, clipAddrW := 32, clipMemSize := 2 ^ 32, whammyBit := 6 }

/-- The machine right after the power-on `reset` (R43, R167), with nothing placed in its memories and nothing pending. -/
def State.reset : State :=
  { cfg := defaultConfig, run := none, clip := .atReset, deb := .atReset, dec := .atReset,
    prog := { cells := [] }, clipTab := Vector.replicate nClips none, clipMem := { cells := [] },
    outBuf := { cells := [] }, resetDone := true, clipsFixed := false, pending := [], replies := [] }

end Sys2Proof.Machine
end

