-- ==== Sys2Proof/Machine/Ops.lean ====
section
/-! DEFINITION. The named operations over the memories and the registers: byte reads and writes of a space (`20_memory.md`),
the fetch, the stack and the program offset of a run (`40_vm_evaluate.md`), and the history shift of the decoder. The
hardware takes no exception and returns from none (`60_exceptions.md` R147, R155), so no such operation stands here. -/

namespace Sys2Proof.Machine

/-! ## Memory -/

/-- What an address that no cell lists reads as, in every space (log 8). -/
def Memory.unlisted : Byte := 0x00#8

/-- The byte a list of cells gives an address. -/
def lookupCell : List Host.Cell → Nat → Byte
  | [], _ => Memory.unlisted
  | (k, v) :: rest, a => if k = a then v else lookupCell rest a

/-- `MemRead(space, addr, 1)` (R11): it changes nothing (R53). -/
def Memory.read (m : Memory) (a : Nat) : Byte := lookupCell m.cells a

/-- A byte placed in a list of cells at its address, keeping the canonical form. -/
def placeCell (a : Nat) (v : Byte) : List Host.Cell → List Host.Cell
  | [] => if v = Memory.unlisted then [] else [(a, v)]
  | (k, w) :: rest =>
    if a < k then (if v = Memory.unlisted then (k, w) :: rest else (a, v) :: (k, w) :: rest)
    else if a = k then (if v = Memory.unlisted then rest else (a, v) :: rest)
    else (k, w) :: placeCell a v rest

/-- `MemWrite(space, addr, 1, v)` (R11). -/
def Memory.write (m : Memory) (a : Nat) (v : Byte) : Memory := { cells := placeCell a v m.cells }

/-- Cells at strictly rising addresses from `lo` on, none of them equal to what an unlisted address reads as. -/
def canonicalFrom : Nat → List Host.Cell → Bool
  | _, [] => true
  | lo, (k, v) :: rest => decide (lo ≤ k) && decide (v ≠ Memory.unlisted) && canonicalFrom (k + 1) rest

/-- The canonical form of a memory (log 8). -/
def Memory.wf (m : Memory) : Bool := canonicalFrom 0 m.cells

/-- Every listed address is below a bound: the memory fits a space of that many bytes. -/
def Memory.fits (m : Memory) (size : Nat) : Bool := m.cells.all fun c => decide (c.1 < size)

/-! ## The run of the VM -/

/-- Truncation of a 64-bit time argument to the 32 bits of a stack entry (R22, decision D9). -/
def latchTime (v : BitVec 64) : Word := v.setWidth 32

/-- `vm_reset` (R80): offset 0, no entry, the time arguments latched. -/
def vmReset (plen : BitVec 11) (t u : BitVec 64) : Run :=
  { pc := 0, stack := [], t32 := latchTime t, u32 := latchTime u, plen := plen, stopped := false }

/-- The stack depth `sp` (R17). -/
abbrev Run.sp (r : Run) : Nat := r.stack.length

/-- The stack entry `S[i]`, entry 0 the bottom; entries at `sp` and above hold no value (R10, R18). -/
def Run.entry (r : Run) (i : Nat) : Option Word := r.stack.reverse[i]?

/-- `Push(v)`: dropped when the stack is full (R81, R90). -/
def Run.push (cap : Nat) (v : Word) (r : Run) : Run :=
  if r.stack.length < cap then { r with stack := v :: r.stack } else r

/-- The frame of the binary operators: the top is the right operand, the entry under it the left; with fewer than two
entries nothing happens (R95, R89). -/
def Run.binary (f : Word → Word → Word) (r : Run) : Run :=
  match r.stack with
  | b :: a :: rest => { r with stack := f a b :: rest }
  | _ => r

/-- The exchange of the top two entries; with fewer than two nothing happens (R110). -/
def Run.swap (r : Run) : Run :=
  match r.stack with
  | x :: y :: rest => { r with stack := y :: x :: rest }
  | _ => r

/-- The push of a copy of the top entry; with an empty stack nothing happens (R111). -/
def Run.duplicate (cap : Nat) (r : Run) : Run :=
  match r.stack with
  | x :: _ => r.push cap x
  | [] => r

/-- `pc <- pc + 1` (R21, R83). -/
def Run.advance (r : Run) : Run := { r with pc := r.pc + 1 }

/-- The stop by `END` (R85 (a), R112): every register keeps its value. -/
def Run.halt (r : Run) : Run := { r with stopped := true }

/-- The run takes no further step: `END` was decoded, or `pc = PLEN` before a fetch (R85). -/
def Run.atStop (r : Run) : Bool := r.stopped || decide (r.pc = r.plen)

/-- The result of a stopped run: the low 8 bits of the top, or 0 from an empty stack (R86). -/
def Run.result (r : Run) : Byte :=
  match r.stack with
  | top :: _ => top.extractLsb' 0 8
  | [] => 0x00#8

/-- `ProgRead(pc)` decoded under the map of the configuration (R82, R84); `none` at an offset outside `PROG`. -/
def State.fetch (s : State) (r : Run) : Option Instr :=
  if r.pc.toNat < maxProgramLen then some (decodeWith s.cfg.enc (s.prog.read r.pc.toNat)) else none

/-- One opcode acts on the run in progress and on nothing else (R79, R156). Outside a run there is nothing to act on
(R15; log 15). -/
def State.onRun (s : State) (f : Run → Run) : Host.Outcome State Fault Refusal :=
  match s.run with
  | some r => .next { s with run := some (f r) }
  | none => .refused .noRun

/-- The stop of a run: its result is returned and everything the VM held is gone (R86, R91). -/
def State.finishRun (s : State) (r : Run) : Host.Outcome State Fault Refusal :=
  .next { s with run := none, replies := .result r.result :: s.replies }

/-! ## Device registers -/

/-- A history register takes a sample in bit 0 and loses its oldest bit (R137), 32 samples. -/
def shiftIn32 (h : BitVec 32) (sample : Bool) : BitVec 32 := h.extractLsb' 0 31 ++ BitVec.ofBool sample

/-- The same for a history of 8 samples (R137). -/
def shiftIn8 (h : BitVec 8) (sample : Bool) : BitVec 8 := h.extractLsb' 0 7 ++ BitVec.ofBool sample

/-- The step as a 32-bit two's-complement value (R8, R141). -/
def EncoderStep.value : EncoderStep → BitVec 32
  | .minus => 0xFFFFFFFF#32
  | .zero => 0#32
  | .plus => 1#32

/-- One poll of one release counter: the hold value on a pressed line, one less and never below 0 otherwise (R128). -/
def countPoll (cycles c : Byte) (pressed : Bool) : Byte :=
  if pressed then cycles else if c = 0 then 0 else c - 1

/-- The record of slot `k`, if `k` is below 32 and the host populated the slot (R47). -/
def State.slot (s : State) (k : BitVec 8) : Option ClipSlot :=
  match s.clipTab[k.toNat]? with
  | some (some c) => some c
  | _ => none

/-- `ClipRead(k, i)` for the record of slot `k` (R11, R48): the byte at `ClipBase + i`. -/
def State.clipRead (s : State) (c : ClipSlot) (i : Nat) : Except Fault Byte :=
  if c.base + i < s.cfg.clipMemSize then .ok (s.clipMem.read (c.base + i)) else .error (.clipOutside (c.base + i))

/-- `OutWrite(j, v)` (R11, R49). -/
def State.outWrite (s : State) (j : Nat) (v : Byte) : State := { s with outBuf := s.outBuf.write j v }

end Sys2Proof.Machine
end

