-- ==== Sys2Proof/Machine/Operands.lean ====
section
/-! DEFINITION. The operand of a literal and the functions `f(a, b)` of the ten binary operators (`30_encoding.md` R69,
`42_vm_binary_ops.md` R96 to R109): `a` is the left operand, the entry pushed earlier, and `b` the right one, the top
(R107, decision D4; log 18). -/

namespace Sys2Proof.Machine

/-- The value of a literal's nibble, zero-extended (R69). -/
def literalValue (n : BitVec 4) : Word := n.setWidth 32

/-- `AND` (R96). -/
def fAnd (a b : Word) : Word := a &&& b

/-- `OR` (R97). -/
def fOr (a b : Word) : Word := a ||| b

/-- `XOR` (R98). -/
def fXor (a b : Word) : Word := a ^^^ b

/-- `ADD`: the sum modulo 2^32 (R99, R106). -/
def fAdd (a b : Word) : Word := a + b

/-- `SUB`: the difference modulo 2^32, `a` the minuend (R100, R106). -/
def fSub (a b : Word) : Word := a - b

/-- `MUL`: the low 32 bits of the product (R101, R106). -/
def fMul (a b : Word) : Word := a * b

/-- `DIV`: the unsigned quotient rounded down, 0 for a zero divisor (R102, R108). -/
def fDiv (a b : Word) : Word := if b = 0 then 0 else a / b

/-- `MOD`: the unsigned remainder, 0 for a zero divisor (R103, R108). -/
def fMod (a b : Word) : Word := if b = 0 then 0 else a % b

/-- `SHL` by the whole value of `b`: 0 from an amount of 32 on (R104, R109). -/
def fShl (a b : Word) : Word := if b.toNat ≤ 31 then a <<< b.toNat else 0

/-- `SHR`, logical, by the whole value of `b`: 0 from an amount of 32 on (R105, R109). -/
def fShr (a b : Word) : Word := if b.toNat ≤ 31 then a >>> b.toNat else 0

/-- The output sample `frac / SCALE` of the way from `s0` to `s1`, rounded down (R119, decision D15). -/
def interpolate (s0 s1 : Byte) (frac : Fin 5) : Byte :=
  BitVec.ofNat 8 ((s0.toNat * (scale - frac.val) + s1.toNat * frac.val) / scale)

end Sys2Proof.Machine
end

