-- ==== Sys2Proof/Machine/BinaryOps.lean ====
section
/-! DEFINITION. The ten binary operators: the frame of `42_vm_binary_ops.md` R95 with the function of R96 to R105. -/

namespace Sys2Proof.Machine

/-- `AND` (R95, R96). -/
def execAnd (s : State) : Host.Outcome State Fault Refusal :=
  s.onRun fun r => (r.binary fAnd).advance

/-- `OR` (R95, R97). -/
def execOr (s : State) : Host.Outcome State Fault Refusal :=
  s.onRun fun r => (r.binary fOr).advance

/-- `XOR` (R95, R98). -/
def execXor (s : State) : Host.Outcome State Fault Refusal :=
  s.onRun fun r => (r.binary fXor).advance

/-- `ADD` (R95, R99). -/
def execAdd (s : State) : Host.Outcome State Fault Refusal :=
  s.onRun fun r => (r.binary fAdd).advance

/-- `SUB` (R95, R100). -/
def execSub (s : State) : Host.Outcome State Fault Refusal :=
  s.onRun fun r => (r.binary fSub).advance

/-- `MUL` (R95, R101). -/
def execMul (s : State) : Host.Outcome State Fault Refusal :=
  s.onRun fun r => (r.binary fMul).advance

/-- `DIV` (R95, R102). -/
def execDiv (s : State) : Host.Outcome State Fault Refusal :=
  s.onRun fun r => (r.binary fDiv).advance

/-- `MOD` (R95, R103). -/
def execMod (s : State) : Host.Outcome State Fault Refusal :=
  s.onRun fun r => (r.binary fMod).advance

/-- `SHL` (R95, R104). -/
def execShl (s : State) : Host.Outcome State Fault Refusal :=
  s.onRun fun r => (r.binary fShl).advance

/-- `SHR` (R95, R105). -/
def execShr (s : State) : Host.Outcome State Fault Refusal :=
  s.onRun fun r => (r.binary fShr).advance

end Sys2Proof.Machine
end

