-- ==== Sys2Proof/Machine/Literals.lean ====
section
/-! DEFINITION. The opcodes that push a value without reading the stack: `LIT n`, `T`, `U`
(`41_vm_literals_timebase.md` R92 to R94). -/

namespace Sys2Proof.Machine

/-- `LIT n`: push the nibble, zero-extended (R92). -/
def execLit (n : BitVec 4) (s : State) : Host.Outcome State Fault Refusal :=
  s.onRun fun r => (r.push s.cfg.stackCap (literalValue n)).advance

/-- `T`: push the first time input (R93). -/
def execT (s : State) : Host.Outcome State Fault Refusal :=
  s.onRun fun r => (r.push s.cfg.stackCap r.t32).advance

/-- `U`: push the second time input (R94). -/
def execU (s : State) : Host.Outcome State Fault Refusal :=
  s.onRun fun r => (r.push s.cfg.stackCap r.u32).advance

end Sys2Proof.Machine
end

