-- ==== Sys2Proof/Machine/StackOps.lean ====
section
/-! DEFINITION. The stack operators `SWP`, `DUP`, the stop `END`, and the undefined bytes, which are skipped
(`43_vm_stack_end_undefined.md` R110 to R113). -/

namespace Sys2Proof.Machine

/-- `SWP`: exchange the top two entries (R110). -/
def execSwp (s : State) : Host.Outcome State Fault Refusal :=
  s.onRun fun r => r.swap.advance

/-- `DUP`: duplicate the top entry (R111). -/
def execDup (s : State) : Host.Outcome State Fault Refusal :=
  s.onRun fun r => (r.duplicate s.cfg.stackCap).advance

/-- `END`: the run stops and `pc` stays (R112). -/
def execEnd (s : State) : Host.Outcome State Fault Refusal :=
  s.onRun fun r => r.halt

/-- An undefined byte of the row `UNDEF_1F` is skipped (R113). -/
def execUndef1F (s : State) : Host.Outcome State Fault Refusal :=
  s.onRun fun r => r.advance

/-- An undefined byte of the row `UNDEF_20_3F` is skipped (R113). -/
def execUndef20 (s : State) : Host.Outcome State Fault Refusal :=
  s.onRun fun r => r.advance

/-- An undefined byte of the row `UNDEF_40_7F` is skipped (R113). -/
def execUndef40 (s : State) : Host.Outcome State Fault Refusal :=
  s.onRun fun r => r.advance

/-- An undefined byte of the row `UNDEF_80_FF` is skipped (R113). -/
def execUndef80 (s : State) : Host.Outcome State Fault Refusal :=
  s.onRun fun r => r.advance

end Sys2Proof.Machine
end

