-- ==== Sys2Proof/Machine/Dispatch.lean ====
section
/-! DEFINITION. The dispatch of `vm_step` (`40_vm_evaluate.md` R82): one flat case over the decoded opcode. -/

namespace Sys2Proof.Machine

def exec (i : Instr) (s : State) : Host.Outcome State Fault Refusal :=
  match i with
  | .lit n => Sys2Proof.Machine.execLit n s
  | .t => Sys2Proof.Machine.execT s
  | .u => Sys2Proof.Machine.execU s
  | .and => Sys2Proof.Machine.execAnd s
  | .or => Sys2Proof.Machine.execOr s
  | .xor => Sys2Proof.Machine.execXor s
  | .add => Sys2Proof.Machine.execAdd s
  | .sub => Sys2Proof.Machine.execSub s
  | .mul => Sys2Proof.Machine.execMul s
  | .div => Sys2Proof.Machine.execDiv s
  | .mod => Sys2Proof.Machine.execMod s
  | .shl => Sys2Proof.Machine.execShl s
  | .shr => Sys2Proof.Machine.execShr s
  | .swp => Sys2Proof.Machine.execSwp s
  | .dup => Sys2Proof.Machine.execDup s
  | .endOp => Sys2Proof.Machine.execEnd s
  | .undef1F _ => Sys2Proof.Machine.execUndef1F s
  | .undef20 _ => Sys2Proof.Machine.execUndef20 s
  | .undef40 _ => Sys2Proof.Machine.execUndef40 s
  | .undef80 _ => Sys2Proof.Machine.execUndef80 s

end Sys2Proof.Machine
end

