-- ==== Sys2Proof/Machine/Flags.lean ====
section
/-! DEFINITION. Every flag the spec gives. The VM has none (`10_state.md` R25); the flags are the seven button bits (R33,
R129), the completion condition of the ClipPlayer (`44_clip_player.md` R117) and the acceptance of the quadrature decoder
(`45_input_capture.md` R138). -/

namespace Sys2Proof.Machine

/-- The mask with bit `bit` set exactly when the counter is above 0 (R129). -/
def pressedBit (c : Byte) (bit : Nat) : Byte := if c = 0 then 0 else 1#8 <<< bit

/-- The button mask: strum in bit 0, frets 1 to 5 in bits 1 to 5, the modulation lever in `WHAMMY_BIT` (R33, R129). -/
def buttonMask (whammyBit : Nat) (cnt : Vector Byte nButtons) : Byte :=
  pressedBit cnt[0] 0 ||| pressedBit cnt[1] 1 ||| pressedBit cnt[2] 2 ||| pressedBit cnt[3] 3
    ||| pressedBit cnt[4] 4 ||| pressedBit cnt[5] 5 ||| pressedBit cnt[6] whammyBit

/-- The completion condition with the current `pos` (R117): no record is an index of 32 or more, and the comparison does
not wrap (decision D16). -/
def clipComplete (record : Option ClipSlot) (pos : BitVec 32) : Bool :=
  match record with
  | none => true
  | some c => decide (c.len.toNat ≤ pos.toNat + 2)

/-- A 32-sample history is settled when it is all zeros or all ones (R138). -/
def settled32 (h : BitVec 32) : Bool := decide (h = 0x00000000#32) || decide (h = 0xFFFFFFFF#32)

/-- The same for an 8-sample history (R138). -/
def settled8 (h : BitVec 8) : Bool := decide (h = 0x00#8) || decide (h = 0xFF#8)

/-- Acceptance of a poll, on the histories after its shift (R138). -/
def Decoder.accepts (d : Decoder) : Bool :=
  settled32 d.hA32 && settled32 d.hB32 && settled8 d.hA8 && settled8 d.hB8
    && (d.hA8.getLsbD 0 == d.hA32.getLsbD 0) && (d.hB8.getLsbD 0 == d.hB32.getLsbD 0)

end Sys2Proof.Machine
end

