-- ==== Sys2Proof/Machine/Clip.lean ====
section
/-! DEFINITION. The ClipPlayer: `clipStep` and `fillSample` (`44_clip_player.md` R114 to R126). -/

namespace Sys2Proof.Machine

/-- The registers after a completion (R118). -/
def ClipPlayer.complete (p : ClipPlayer) : ClipPlayer :=
  { p with pos := 0, frac := 0, last := silence }

/-- The registers after an interpolated sample `out`: the phase advances by one output sample (R118, R120, R126). -/
def ClipPlayer.produce (p : ClipPlayer) (out : Byte) : ClipPlayer :=
  if p.frac = 4 then { p with pos := p.pos + 1, frac := 0, last := out }
  else { p with frac := p.frac + 1, last := out }

/-- `clipStep(k)`: the byte, the completion flag, and the registers it leaves (R118). An index of 32 or more, and a slot
without a record, have no clip to play, so that they complete; `fillSample` refuses the second case first. -/
def State.clipStep (s : State) (k : BitVec 8) : Except Fault (Byte × Bool × ClipPlayer) :=
  match s.slot k with
  | none => .ok (silence, true, s.clip.complete)
  | some c =>
    if clipComplete (some c) s.clip.pos then .ok (silence, true, s.clip.complete)
    else
      match s.clipRead c s.clip.pos.toNat with
      | .error f => .error f
      | .ok s0 =>
        match s.clipRead c (s.clip.pos.toNat + 1) with
        | .error f => .error f
        | .ok s1 =>
          let out := interpolate s0 s1 s.clip.frac
          .ok (out, false, s.clip.produce out)

/-- The loop of `fillSample` over the remaining `n` indices, of which `j` is the next (R121): one `clipStep` an index until
one completes, then padding that changes no register. -/
def fillLoop (k : BitVec 8) : Nat → Nat → Bool → State → Except Fault (Bool × State)
  | 0, _, done, s => .ok (done, s)
  | n + 1, j, true, s => fillLoop k n (j + 1) true (s.outWrite j silence)
  | n + 1, j, false, s =>
    match s.clipStep k with
    | .error f => .error f
    | .ok (b, d, p) => fillLoop k n (j + 1) d (({ s with clip := p } : State).outWrite j b)

/-- `fillSample(k)`: the whole call is one event (R114, R121). The first call fixes the clips (HD2, R173); a slot below 32
must have been populated (R170; log 9). -/
def State.fillSample (s : State) (k : BitVec 8) : Host.Outcome State Fault Refusal :=
  if k.toNat < nClips ∧ s.slot k = none then .refused .slotNotPopulated
  else
    match fillLoop k s.cfg.bufferSize 0 false s with
    | .error f => .fault f
    | .ok (done, s') => .next { s' with clipsFixed := true, replies := .filled done :: s'.replies }

end Sys2Proof.Machine
end

