-- ==== Sys2Proof/Machine/Input.lean ====
section
/-! DEFINITION. InputCapture: the debouncer and the quadrature decoder (`45_input_capture.md` R127 to R146). -/

namespace Sys2Proof.Machine

/-- `button_poll(raw)`: the seven counters, each from its own line (R128, R134). -/
def Debouncer.poll (d : Debouncer) (raw : BitVec 7) : Debouncer :=
  { d with cnt := Vector.ofFn fun i => countPoll d.cycles d.cnt[i] (raw.getLsbD i) }

/-- `setDebounce(v)`: no counter is touched (R131, R133). -/
def Debouncer.setCycles (d : Debouncer) (v : Byte) : Debouncer := { d with cycles := v }

/-- The history shift of a poll: all four registers take the sample of their line (R137). -/
def Decoder.shift (d : Decoder) (a b : Bool) : Decoder :=
  { d with hA32 := shiftIn32 d.hA32 a, hB32 := shiftIn32 d.hB32 b, hA8 := shiftIn8 d.hA8 a, hB8 := shiftIn8 d.hB8 b }

/-- The step of a poll, read from the histories after the shift and the settled A level before it (R138, R139). -/
def Decoder.stepOf (d : Decoder) : EncoderStep :=
  if d.accepts then
    if d.hA32.getLsbD 0 && !d.sA then
      if d.hB32.getLsbD 0 then .plus else .minus
    else .zero
  else .zero

/-- An accepting poll stores the settled levels; another leaves them (R140). -/
def Decoder.settle (d : Decoder) : Decoder :=
  if d.accepts then { d with sA := d.hA32.getLsbD 0, sB := d.hB32.getLsbD 0 } else d

/-- The addition of a step to `delta`, modulo 2^32 (R141). -/
def Decoder.accumulate (d : Decoder) (st : EncoderStep) : Decoder := { d with delta := d.delta + st.value }

/-- `encoder_poll(a, b)`: the step it returns and the registers it leaves (R136). -/
def Decoder.poll (d : Decoder) (a b : Bool) : EncoderStep × Decoder :=
  let shifted := d.shift a b
  (shifted.stepOf, shifted.settle.accumulate shifted.stepOf)

/-- `readEncoderDelta()`: the value it returns and the registers it leaves, in one atomic event (R142, R58). -/
def Decoder.readClear (d : Decoder) : BitVec 32 × Decoder := (d.delta, { d with delta := 0 })

end Sys2Proof.Machine
end

