-- ==== Sys2Proof/Machine/Events.lean ====
section
/-! DEFINITION. The events of the host (`00_scope.md` R13): which context may issue each (`60_exceptions.md` R156), the
duties the model checks (`70_reset_and_hazards.md` R171), and the effect of each on the state. -/

namespace Sys2Proof.Machine

/-- The context an event belongs to (R156; the two boot-time writes: R170, log 11). -/
def Event.owner : Event → Context
  | .encoderPoll _ _ => .foreground
  | .writeSlot _ _ _ | .writeClip _ _ | .reset => .boot
  | .evaluate _ _ _ | .fillSample _ | .buttonPoll _ | .readButtons | .setDebounce _ | .readEncoderDelta
  | .writeProg _ _ => .producer

/-- The start of an `evaluate`: `vm_reset` (R79, R80), for a bound of at most `MAX_PROGRAM_LEN` (HD4). -/
def State.startRun (s : State) (plen : BitVec 11) (t u : BitVec 64) : Host.Outcome State Fault Refusal :=
  if plen.toNat ≤ maxProgramLen then .next { s with run := some (vmReset plen t u) } else .refused .plenTooLarge

/-- `button_poll` (R128). -/
def State.buttonPoll (s : State) (raw : BitVec 7) : Host.Outcome State Fault Refusal :=
  .next { s with deb := s.deb.poll raw }

/-- `readButtons`: returns the mask and writes nothing (R130). -/
def State.readButtons (s : State) : Host.Outcome State Fault Refusal :=
  .next { s with replies := .mask (buttonMask s.cfg.whammyBit s.deb.cnt) :: s.replies }

/-- `setDebounce` (R131). -/
def State.setDebounce (s : State) (v : Byte) : Host.Outcome State Fault Refusal :=
  .next { s with deb := s.deb.setCycles v }

/-- `encoder_poll` (R136). -/
def State.encoderPoll (s : State) (a b : Bool) : Host.Outcome State Fault Refusal :=
  .next { s with dec := (s.dec.poll a b).2, replies := .polled (s.dec.poll a b).1 :: s.replies }

/-- `readEncoderDelta` (R142). -/
def State.readEncoderDelta (s : State) : Host.Outcome State Fault Refusal :=
  .next { s with dec := s.dec.readClear.2, replies := .delta s.dec.readClear.1 :: s.replies }

/-- The host's write of one byte of `PROG` (R60). -/
def State.writeProg (s : State) (offset : BitVec 10) (v : Byte) : Host.Outcome State Fault Refusal :=
  .next { s with prog := s.prog.write offset.toNat v }

/-- The host's boot-time write of a clip-table record, whose base is a `CLIP_ADDR_W`-bit address (R47) and which must
describe readable bytes (R66, R170; log 12); a record of length 0 describes no byte, so any base will do (R170). That the
readable bytes are the addresses from 0 up to `clipMemSize` is a DESIGN CHOICE of the model: R54 leaves the place of
`CLIPMEM` to the platform (log 31). -/
def State.writeSlot (s : State) (slot : BitVec 5) (base : Nat) (len : BitVec 32) : Host.Outcome State Fault Refusal :=
  if s.clipsFixed then .refused .clipsAlreadyFixed
  else if base < 2 ^ s.cfg.clipAddrW ∧ (len.toNat = 0 ∨ base + len.toNat ≤ s.cfg.clipMemSize) then
    .next { s with clipTab := s.clipTab.set slot.toNat (some { base := base, len := len }) slot.isLt }
  else .refused .clipNotReadable

/-- The host's boot-time write of one byte of clip memory (R170; the place of the memory: DESIGN CHOICE, log 31). -/
def State.writeClip (s : State) (addr : Nat) (v : Byte) : Host.Outcome State Fault Refusal :=
  if s.clipsFixed then .refused .clipsAlreadyFixed
  else if addr < s.cfg.clipMemSize then .next { s with clipMem := s.clipMem.write addr v }
  else .refused .clipNotReadable

/-- `reset`: every register at the value of R43; the memories keep their unspecified power-on content, and nothing has
been returned yet (R167; log 29). -/
def State.powerOnReset (s : State) : Host.Outcome State Fault Refusal :=
  if s.resetDone then .refused .secondReset
  else
    .next { s with run := none, clip := .atReset, deb := .atReset, dec := .atReset,
                   resetDone := true, clipsFixed := false, replies := [] }

/-- The effect of an event issued in its own context. -/
def State.perform (s : State) : Event → Host.Outcome State Fault Refusal
  | .evaluate plen t u => s.startRun plen t u
  | .fillSample k => s.fillSample k
  | .buttonPoll raw => s.buttonPoll raw
  | .readButtons => s.readButtons
  | .setDebounce v => s.setDebounce v
  | .encoderPoll a b => s.encoderPoll a b
  | .readEncoderDelta => s.readEncoderDelta
  | .writeProg offset v => s.writeProg offset v
  | .writeSlot slot base len => s.writeSlot slot base len
  | .writeClip addr v => s.writeClip addr v
  | .reset => s.powerOnReset

/-- The duties on when and where an event may be issued (HD1, HD7, HD8 of R171), then its effect. -/
def State.issue (s : State) (c : Context) (e : Event) : Host.Outcome State Fault Refusal :=
  if s.resetDone = false ∧ e ≠ .reset then .refused .eventBeforeReset
  else if c = e.owner then s.perform e
  else .refused .wrongContext

/-- Between runs the oldest pending event is taken whole (R13, R56); with none pending every register holds its value
(R165). -/
def State.takeEvent (s : State) : Host.Outcome State Fault Refusal :=
  match s.pending with
  | [] => .next s
  | (c, e) :: rest => ({ s with pending := rest } : State).issue c e

end Sys2Proof.Machine
end

