-- ==== Sys2Proof/Machine/Step.lean ====
section
/-! DEFINITION. One step of the machine, and the placing of one instruction where a step fetches it. -/

namespace Sys2Proof.Machine

/-- One step: the next `vm_step` of the run in progress (R82), or its stop (R85, R86), or, between runs, the next event of
the host (R13). An event waits while a run is in progress, so that a run is one atomic event to every other (log 4). -/
def step (s : State) : Host.Outcome State Fault Refusal :=
  match s.run with
  | none => s.takeEvent
  | some r =>
    if r.atStop then s.finishRun r
    else
      match s.fetch r with
      | some i => exec i s
      | none => .fault (.progOutside r.pc.toNat)

/-- The state with an instruction's byte where the next step fetches it: at `pc` of a run that can take a step, and
otherwise at offset 0 of a run started with the default bound of R23 (log 7). -/
def State.withFetchWord (s : State) (nbits w : Nat) : State :=
  let b : Byte := BitVec.ofNat 8 (w % 2 ^ nbits)
  match s.run with
  | some r =>
    if r.atStop = false ∧ r.pc.toNat < maxProgramLen then { s with prog := s.prog.write r.pc.toNat b }
    else { s with prog := s.prog.write 0 b, run := some (vmReset (BitVec.ofNat 11 maxProgramLen) 0 0) }
  | none => { s with prog := s.prog.write 0 b, run := some (vmReset (BitVec.ofNat 11 maxProgramLen) 0 0) }

end Sys2Proof.Machine
end

