-- ==== Sys2Proof/Safety.lean ====
section
/-! DEFINITION. The terms in which claims are made: the invariant of a machine whose host keeps its duties, the steps a reader
of `delta` has not been given yet, the iteration of device operations, and `evaluate` as one function of its arguments
(`40_vm_evaluate.md` R79, R88). -/

namespace Sys2Proof.Machine

/-- The steps emitted since the last read of `delta`, as the replies record them, newest first (R59, R146). -/
def unreadSteps : List Reply → BitVec 32
  | [] => 0
  | .delta _ :: _ => 0
  | .polled st :: older => st.value + unreadSteps older
  | .result _ :: older | .filled _ :: older | .mask _ :: older => unreadSteps older

/-- Every populated slot describes bytes of `CLIPMEM`, none where its length is 0 (R66, R170). -/
def State.slotsReadable (s : State) : Prop :=
  ∀ (k : BitVec 8) (c : ClipSlot), s.slot k = some c → c.len.toNat = 0 ∨ c.base + c.len.toNat ≤ s.cfg.clipMemSize

/-- The bounds of a run: `0 <= pc <= PLEN <= 1024` (R20, R23) and `0 <= sp <= STACK_CAP` (R17). -/
def State.runBounded (s : State) : Prop :=
  ∀ r, s.run = some r → r.pc.toNat ≤ r.plen.toNat ∧ r.plen.toNat ≤ maxProgramLen ∧ r.sp ≤ s.cfg.stackCap

/-- The invariant: well-formed parameters (R7), memories in canonical form inside their spaces (R45), readable slots
(R66), a bounded run (R17, R20, R23), and second-stage histories that agree with the first (R137). -/
structure State.Inv (s : State) : Prop where
  cfgWf : s.cfg.wf = true
  progWf : s.prog.wf = true ∧ s.prog.fits maxProgramLen = true
  clipMemWf : s.clipMem.wf = true ∧ s.clipMem.fits s.cfg.clipMemSize = true
  outBufWf : s.outBuf.wf = true ∧ s.outBuf.fits s.cfg.bufferSize = true
  slotsReadable : s.slotsReadable
  runBounded : s.runBounded
  historiesAgree : s.dec.hA8 = s.dec.hA32.extractLsb' 0 8 ∧ s.dec.hB8 = s.dec.hB32.extractLsb' 0 8

/-- Between two runs, after `reset`, the oldest pending event is `e`, issued in its own context. -/
def State.awaits (s : State) (e : Event) (rest : List (Context × Event)) : Prop :=
  s.run = none ∧ s.resetDone = true ∧ s.pending = (e.owner, e) :: rest

/-- A number of steps, stopping at the first fault or refusal. -/
def runSteps : Nat → State → Host.Outcome State Fault Refusal
  | 0, s => .next s
  | n + 1, s =>
    match step s with
    | .next s' => runSteps n s'
    | .fault f => .fault f
    | .refused r => .refused r

/-- The effect of one opcode on a stack (top first) with the time inputs of a run (R92 to R113): the big-step side of the
refinement claim, written over the stack alone. -/
def stackEffect (cap : Nat) (t32 u32 : Word) (i : Instr) (stack : List Word) : List Word :=
  let pushed (v : Word) : List Word := if stack.length < cap then v :: stack else stack
  let combined (f : Nat → Nat → Nat) : List Word :=
    match stack with
    | b :: a :: rest => BitVec.ofNat 32 (f a.toNat b.toNat) :: rest
    | _ => stack
  match i with
  | .lit n => pushed (BitVec.ofNat 32 n.toNat)
  | .t => pushed t32
  | .u => pushed u32
  | .and => combined fun a b => a &&& b
  | .or => combined fun a b => a ||| b
  | .xor => combined fun a b => a ^^^ b
  | .add => combined fun a b => (a + b) % 2 ^ 32
  | .sub => combined fun a b => if b ≤ a then a - b else a + 2 ^ 32 - b
  | .mul => combined fun a b => (a * b) % 2 ^ 32
  | .div => combined fun a b => if b = 0 then 0 else a / b
  | .mod => combined fun a b => if b = 0 then 0 else a % b
  | .shl => combined fun a b => if b ≤ 31 then (a * 2 ^ b) % 2 ^ 32 else 0
  | .shr => combined fun a b => if b ≤ 31 then a / 2 ^ b else 0
  | .swp =>
    match stack with
    | x :: y :: rest => y :: x :: rest
    | _ => stack
  | .dup =>
    match stack with
    | x :: _ => pushed x
    | [] => stack
  | .endOp | .undef1F _ | .undef20 _ | .undef40 _ | .undef80 _ => stack

/-- The stack a run leaves when its remaining opcodes are `is`: each takes effect in turn, up to the first `END` or the end
of the list (R85). -/
def finalStack (cap : Nat) (t32 u32 : Word) : List Instr → List Word → List Word
  | [], stack => stack
  | i :: rest, stack => if i = .endOp then stack else finalStack cap t32 u32 rest (stackEffect cap t32 u32 i stack)

/-- `evaluate(program, t, u) -> byte` as one function of the program's bytes up to the bound, the low 32 bits of the time
arguments, and the configuration (R79, R86, R88). -/
def evaluateSpec (cfg : Config) (program : List Byte) (t u : BitVec 64) : Byte :=
  match finalStack cfg.stackCap (BitVec.ofNat 32 t.toNat) (BitVec.ofNat 32 u.toNat)
      (program.map (decodeWith cfg.enc)) [] with
  | top :: _ => BitVec.ofNat 8 top.toNat
  | [] => 0

/-- The program of a run: the bytes of `PROG` from offset 0 up to, not including, `PLEN` (R14). -/
def State.program (s : State) (plen : BitVec 11) : List Byte := (List.range plen.toNat).map s.prog.read

/-- A list of polls of the encoder, the first one first: the last step emitted and the registers left. -/
def Decoder.pollAll (d : Decoder) : List (Bool × Bool) → List EncoderStep × Decoder
  | [] => ([], d)
  | (a, b) :: rest =>
    ((d.poll a b).1 :: ((d.poll a b).2.pollAll rest).1, ((d.poll a b).2.pollAll rest).2)

/-- A list of polls of the buttons, the first one first. -/
def Debouncer.pollAll (d : Debouncer) : List (BitVec 7) → Debouncer
  | [] => d
  | raw :: rest => (d.poll raw).pollAll rest

/-- `n` `clipStep`s of index `k` one after another, as far as none faults: the bytes and flags, the first one first, and
the state left (R118). -/
def State.clipSteps (k : BitVec 8) : Nat → State → Except Fault (List (Byte × Bool) × State)
  | 0, s => .ok ([], s)
  | n + 1, s =>
    match s.clipStep k with
    | .error f => .error f
    | .ok (b, d, p) =>
      match State.clipSteps k n { s with clip := p } with
      | .error f => .error f
      | .ok (outs, s') => .ok ((b, d) :: outs, s')

end Sys2Proof.Machine
end

