-- ==== Sys2Proof/Certificates/Slice0/Obligations.lean ====
section
/-! DEFINITION. The statements for the provers. Each formalises rules of `spec/`, named in its docstring; where a rule is
marked there as a decision or a derivation of the spec's own, the docstring names the mark. -/

open Sys2Proof Sys2Proof.Machine

/-! ## Encoding -/

/-- The reference program of R78 and one byte of every other row decode to what R70 and R72 say (decisions D1, D2). -/
def Obligations.ListedBytesDecodeToTheirInstructions : Prop :=
  [0x00, 0x00, 0x10, 0x05, 0x17, 0x10, 0x07, 0x1B, 0x12, 0x11, 0x03, 0x17, 0x11, 0x0A, 0x1B, 0x12, 0x13, 0x1E].map
      (decodeWith defaultEnc) =
    [.lit 0, .lit 0, .t, .lit 5, .mul, .t, .lit 7, .shr, .and, .u, .lit 3, .mul, .u, .lit 10, .shr, .and, .or, .endOp] ∧
  [0x0F, 0x14, 0x15, 0x16, 0x18, 0x19, 0x1A, 0x1C, 0x1D].map (decodeWith defaultEnc) =
    [.lit 15, .xor, .add, .sub, .div, .mod, .shl, .swp, .dup] ∧
  [0x1F, 0x20, 0x3F, 0x40, 0x7F, 0x80, 0xFF].map (decodeWith defaultEnc) =
    [.undef1F 31, .undef20 0, .undef20 31, .undef40 0, .undef40 63, .undef80 0, .undef80 127]

/-- Under the map of R70 every byte selects exactly one row of the opcode table, that of the instruction it decodes to
(R71, a derivation of the spec's own). -/
def Obligations.EveryByteSelectsExactlyItsRow : Prop :=
  ∀ b : Byte, (decodeWith defaultEnc b).row.selects b = true ∧
    ∀ row ∈ tableRows, row.selects b = true → row = (decodeWith defaultEnc b).row

/-- Under EVERY injective map of the 31 opcodes (R77, decision D34), decoding the byte of a well-formed instruction gives the
instruction back: every literal's nibble and every bit of an undefined byte included. -/
def Obligations.DecodeInvertsEncode : Prop :=
  ∀ enc : List Byte, encWf enc = true → ∀ i : Instr, i.wfFor enc = true →
    ∃ b, encodeWith enc i = some b ∧ decodeWith enc b = i

/-- Under every injective map of the 31 opcodes (R77, decision D34), every byte decodes to a well-formed instruction whose
byte it is: decoding is total and no two bytes share an instruction (R71, R72). -/
def Obligations.EncodeInvertsDecode : Prop :=
  ∀ enc : List Byte, encWf enc = true → ∀ b : Byte,
    (decodeWith enc b).wfFor enc = true ∧ encodeWith enc (decodeWith enc b) = some b

/-! ## The run -/

/-- While a run has not stopped, a step is `exec` of the instruction that the byte at `pc` decodes to; nothing is added
around it, and the opcode's own meaning moves `pc` (R82, R84). -/
def Obligations.StepRunsTheDecodedInstruction : Prop :=
  ∀ (s : State) (r : Run), s.run = some r → r.stopped = false → r.pc ≠ r.plen → r.pc.toNat < maxProgramLen →
    step s = exec (decodeWith s.cfg.enc (s.prog.read r.pc.toNat)) s

/-- `vm_reset` at the start of an `evaluate`: offset 0, no entry, the low 32 bits of each time argument (R80, R22:
decisions D9, D14); nothing else changes but the event, which is taken. -/
def Obligations.EvaluateStartsWithVmReset : Prop :=
  ∀ (s : State) (plen : BitVec 11) (t u : BitVec 64) (rest : List (Context × Event)),
    s.awaits (.evaluate plen t u) rest → plen.toNat ≤ maxProgramLen →
    step s = .next { s with
      pending := rest
      run := some { pc := 0, stack := [], t32 := BitVec.ofNat 32 (t.toNat % 2 ^ 32),
                    u32 := BitVec.ofNat 32 (u.toNat % 2 ^ 32), plen := plen, stopped := false } }

/-- R86: when a run has stopped, by either stop, the result is the low 8 bits of the top of the stack, or 0 if the stack is
empty; it is returned, and nothing of the run is left. -/
def Obligations.StoppedRunReturnsLowByteOfTop : Prop :=
  ∀ (s : State) (r : Run), s.run = some r → (r.stopped = true ∨ r.pc = r.plen) →
    ∃ v : Byte, step s = .next { s with run := none, replies := .result v :: s.replies } ∧
      (∀ top below, r.stack = top :: below → v.toNat = top.toNat % 2 ^ 8) ∧ (r.stack = [] → v = 0)

/-- R85: a run ends at a step exactly when `END` has been decoded or `pc = PLEN` before the fetch, and a step marks `END` as
decoded exactly when the opcode it executes is `END`. -/
def Obligations.RunStopsExactlyAtEndOrBound : Prop :=
  ∀ (s s' : State) (r : Run), s.run = some r → step s = .next s' →
    (s'.run = none ↔ r.stopped = true ∨ r.pc = r.plen) ∧
    ∀ r', s'.run = some r' →
      (r'.stopped = true ↔ decodeWith s.cfg.enc (s.prog.read r.pc.toNat) = .endOp)

/-- R87 (a derivation of the spec's own): from every state that meets the invariant, a run in progress is over after at most
`PLEN - pc` opcodes and the stop, its result returned and every pending event still pending. -/
def Obligations.RunEndsWithinItsBound : Prop :=
  ∀ (s : State) (r : Run), s.Inv → s.run = some r →
    ∃ (n : Nat) (s' : State) (v : Byte), n ≤ r.plen.toNat - r.pc.toNat + 1 ∧ runSteps n s = .next s' ∧
      s' = { s with run := none, replies := .result v :: s.replies }

/-- The machine's steps compute `evaluate(program, t, u) -> byte` (R79 to R86): from a state that meets the invariant and
awaits an `evaluate`, at most `PLEN + 2` steps return the byte that the one-function description over the decoded program
gives, and change nothing else. -/
def Obligations.EvaluateRefinesItsFunction : Prop :=
  ∀ (s : State) (plen : BitVec 11) (t u : BitVec 64) (rest : List (Context × Event)), s.Inv →
    s.awaits (.evaluate plen t u) rest → plen.toNat ≤ maxProgramLen →
    ∃ n, n ≤ plen.toNat + 2 ∧
      runSteps n s =
        .next { s with pending := rest, replies := .result (evaluateSpec s.cfg (s.program plen) t u) :: s.replies }

/-- R88: two machines that agree on `STACK_CAP`, the map, the low 32 bits of the time arguments and the program bytes below
`PLEN` up to the first `END` return the same byte, whatever else their states hold: other registers, other memories, other
bytes of `PROG` at or after the stop, other high halves of `t` and `u`. -/
def Obligations.EvaluateReadsNothingElse : Prop :=
  ∀ (s₁ s₂ : State) (plen : BitVec 11) (t₁ u₁ t₂ u₂ : BitVec 64) (rest₁ rest₂ : List (Context × Event)),
    s₁.awaits (.evaluate plen t₁ u₁) rest₁ → s₂.awaits (.evaluate plen t₂ u₂) rest₂ →
    plen.toNat ≤ maxProgramLen → s₁.cfg.stackCap = s₂.cfg.stackCap → s₁.cfg.enc = s₂.cfg.enc →
    (∀ a, a < plen.toNat → (∀ b, b < a → decodeWith s₁.cfg.enc (s₁.prog.read b) ≠ .endOp) →
      s₁.prog.read a = s₂.prog.read a) →
    t₁.toNat % 2 ^ 32 = t₂.toNat % 2 ^ 32 → u₁.toNat % 2 ^ 32 = u₂.toNat % 2 ^ 32 →
    ∃ (n : Nat) (v : Byte),
      runSteps n s₁ = .next { s₁ with pending := rest₁, replies := .result v :: s₁.replies } ∧
      runSteps n s₂ = .next { s₂ with pending := rest₂, replies := .result v :: s₂.replies }

/-! ## Opcodes: results, completion and frames -/

/-- `LIT n`, `T`, `U` push their value, `zext_32(n)`, `t32`, `u32`; at capacity the push is dropped and no entry changes
(R81, R92, R93, R94). The next state is given whole, so everything else is unchanged. -/
def Obligations.PushingOpcodesPushOrDrop : Prop :=
  ∀ (s : State) (r : Run) (i : Instr) (v : Word), s.run = some r →
    ((∃ n : BitVec 4, i = .lit n ∧ v = BitVec.ofNat 32 n.toNat) ∨ (i = .t ∧ v = r.t32) ∨ (i = .u ∧ v = r.u32)) →
    exec i s = .next { s with
      run := some { r with pc := r.pc + 1
                           stack := if r.stack.length < s.cfg.stackCap then v :: r.stack else r.stack } }

/-- `AND`, `OR`, `XOR` on two or more entries (R96, R97, R98): the two operands are replaced by the word whose every bit is
the bitwise function of theirs, `pc` moves by one, and everything else is unchanged. -/
def Obligations.BitwiseOperatorsCombineBits : Prop :=
  ∀ (s : State) (r : Run) (a b : Word) (below : List Word), s.run = some r → r.stack = b :: a :: below →
    (∃ v, exec .and s = .next { s with run := some { r with pc := r.pc + 1, stack := v :: below } } ∧
      ∀ j, j < 32 → v.getLsbD j = (a.getLsbD j && b.getLsbD j)) ∧
    (∃ v, exec .or s = .next { s with run := some { r with pc := r.pc + 1, stack := v :: below } } ∧
      ∀ j, j < 32 → v.getLsbD j = (a.getLsbD j || b.getLsbD j)) ∧
    (∃ v, exec .xor s = .next { s with run := some { r with pc := r.pc + 1, stack := v :: below } } ∧
      ∀ j, j < 32 → v.getLsbD j = (a.getLsbD j ^^ b.getLsbD j))

/-- `ADD`, `SUB`, `MUL` on two or more entries (R99, R100, R101: decision D6; operand order R107: decision D4): the exact
result reduced modulo 2^32, `a` the left operand; everything else is unchanged. -/
def Obligations.ArithmeticWrapsModulo32Bits : Prop :=
  ∀ (s : State) (r : Run) (a b : Word) (below : List Word), s.run = some r → r.stack = b :: a :: below →
    exec .add s = .next { s with run := some { r with
      pc := r.pc + 1, stack := BitVec.ofNat 32 ((a.toNat + b.toNat) % 2 ^ 32) :: below } } ∧
    exec .sub s = .next { s with run := some { r with
      pc := r.pc + 1
      stack := BitVec.ofNat 32 (if b.toNat ≤ a.toNat then a.toNat - b.toNat else a.toNat + 2 ^ 32 - b.toNat) :: below } } ∧
    exec .mul s = .next { s with run := some { r with
      pc := r.pc + 1, stack := BitVec.ofNat 32 ((a.toNat * b.toNat) % 2 ^ 32) :: below } }

/-- `DIV`, `MOD` on two or more entries (R102, R103, R108: decision D8; operand order R107: decision D4): the unsigned quotient
and remainder, both 0 for a zero divisor; everything else is unchanged. -/
def Obligations.DivisionIsUnsignedAndZeroByZero : Prop :=
  ∀ (s : State) (r : Run) (a b : Word) (below : List Word), s.run = some r → r.stack = b :: a :: below →
    ∃ q m : Word,
      exec .div s = .next { s with run := some { r with pc := r.pc + 1, stack := q :: below } } ∧
      exec .mod s = .next { s with run := some { r with pc := r.pc + 1, stack := m :: below } } ∧
      (b.toNat = 0 → q.toNat = 0 ∧ m.toNat = 0) ∧
      (0 < b.toNat → a.toNat = q.toNat * b.toNat + m.toNat ∧ m.toNat < b.toNat)

/-- `SHL`, `SHR` on two or more entries (R104, R105, R109: decision D7; operand order R107: decision D4): the whole value of the
top is the amount, and an amount of 32 or more gives 0; everything else is unchanged. -/
def Obligations.ShiftsUseTheWholeAmount : Prop :=
  ∀ (s : State) (r : Run) (a b : Word) (below : List Word), s.run = some r → r.stack = b :: a :: below →
    exec .shl s = .next { s with run := some { r with
      pc := r.pc + 1
      stack := BitVec.ofNat 32 (if b.toNat ≤ 31 then a.toNat * 2 ^ b.toNat % 2 ^ 32 else 0) :: below } } ∧
    exec .shr s = .next { s with run := some { r with
      pc := r.pc + 1
      stack := BitVec.ofNat 32 (if b.toNat ≤ 31 then a.toNat / 2 ^ b.toNat else 0) :: below } }

/-- Underflow (R89: conflict C1, decision D5): a binary operator or `SWP` at depth 0 or 1, and `DUP` at depth 0, advance `pc`
and change nothing else. -/
def Obligations.UnderflowOnlyAdvances : Prop :=
  ∀ (s : State) (r : Run) (i : Instr), s.run = some r →
    (i ∈ [.and, .or, .xor, .add, .sub, .mul, .div, .mod, .shl, .shr, .swp] ∧ r.stack.length < 2 ∨
      i = .dup ∧ r.stack = []) →
    exec i s = .next { s with run := some { r with pc := r.pc + 1 } }

/-- R110: `SWP` exchanges the top two entries and touches no other, at every depth of two or more; at depth 0 and 1 it is a
no-op; two in a row restore the stack. -/
def Obligations.SwapExchangesTheTopTwo : Prop :=
  ∀ (s : State) (r : Run), s.run = some r →
    (∀ x y below, r.stack = x :: y :: below →
      exec .swp s = .next { s with run := some { r with pc := r.pc + 1, stack := y :: x :: below } }) ∧
    (r.stack.length < 2 → exec .swp s = .next { s with run := some { r with pc := r.pc + 1 } }) ∧
    ∃ s₁, exec .swp s = .next s₁ ∧
      exec .swp s₁ = .next { s with run := some { r with pc := r.pc + 1 + 1 } }

/-- R111: `DUP` pushes a copy of the top entry; at `STACK_CAP` the push is dropped; on an empty stack it is a no-op. -/
def Obligations.DuplicatePushesTheTop : Prop :=
  ∀ (s : State) (r : Run), s.run = some r →
    (∀ x below, r.stack = x :: below → r.stack.length < s.cfg.stackCap →
      exec .dup s = .next { s with run := some { r with pc := r.pc + 1, stack := x :: x :: below } }) ∧
    (s.cfg.stackCap ≤ r.stack.length ∨ r.stack = [] →
      exec .dup s = .next { s with run := some { r with pc := r.pc + 1 } })

/-- R112: `END` stops the run; `pc` and every entry keep their values and nothing outside the run changes; whatever bytes
follow, the next step is the return of the result. -/
def Obligations.EndStopsTheRunInPlace : Prop :=
  ∀ (s : State) (r : Run), s.run = some r →
    exec .endOp s = .next { s with run := some { r with stopped := true } } ∧
    ∀ (s₁ : State) (prog : Memory), exec .endOp s = .next s₁ →
      ∃ v, step { s₁ with prog := prog } =
          .next { s with run := none, prog := prog, replies := .result v :: s.replies } ∧
        (r.stack = [] → v = 0) ∧ ∀ top below, r.stack = top :: below → v.toNat = top.toNat % 2 ^ 8

/-- R113: every undefined byte, under any map, is skipped: `pc` moves by one and nothing else changes, the run going on with
the next byte; a program made only of undefined bytes returns 0. -/
def Obligations.UndefinedBytesAreSkipped : Prop :=
  (∀ (s : State) (r : Run) (x : BitVec 5) (y : BitVec 6) (z : BitVec 7) (i : Instr), s.run = some r →
    i ∈ [.undef1F x, .undef20 x, .undef40 y, .undef80 z] →
    exec i s = .next { s with run := some { r with pc := r.pc + 1 } }) ∧
  (∀ (s : State) (r : Run), s.run = some r → r.stopped = false → r.pc ≠ r.plen → r.pc.toNat < maxProgramLen →
    s.prog.read r.pc.toNat ∉ s.cfg.enc → step s = .next { s with run := some { r with pc := r.pc + 1 } }) ∧
  (∀ (cfg : Config) (program : List Byte) (t u : BitVec 64), (∀ b ∈ program, b ∉ cfg.enc) →
    evaluateSpec cfg program t u = 0)

/-- What every opcode leaves unchanged (R79, R83, R156): no register of a device, no byte of a memory, no input of the run;
`pc` is one more after every opcode but `END`, which keeps it. -/
def Obligations.OpcodesChangeOnlyTheRun : Prop :=
  ∀ (i : Instr) (s s' : State), exec i s = .next s' →
    ∃ r r', s.run = some r ∧ s' = { s with run := some r' } ∧
      r'.plen = r.plen ∧ r'.t32 = r.t32 ∧ r'.u32 = r.u32 ∧
      (i ≠ .endOp → r'.pc = r.pc + 1 ∧ r'.stopped = r.stopped) ∧
      (i = .endOp → r' = { r with stopped := true }) ∧
      ∀ a, s'.prog.read a = s.prog.read a ∧ s'.clipMem.read a = s.clipMem.read a ∧ s'.outBuf.read a = s.outBuf.read a

/-- The depth and the entries below (R17, R19, R95): an opcode moves the depth by at most one, keeps it within `STACK_CAP`,
and leaves every entry under the top two as it was. -/
def Obligations.OpcodesReachOnlyTheTopTwo : Prop :=
  ∀ (i : Instr) (s s' : State) (r r' : Run), s.run = some r → exec i s = .next s' → s'.run = some r' →
    r.sp ≤ r'.sp + 1 ∧ r'.sp ≤ r.sp + 1 ∧ (r.sp ≤ s.cfg.stackCap → r'.sp ≤ s.cfg.stackCap) ∧
    ∀ j, j + 2 < r.sp → r'.entry j = r.entry j

/-! ## The whole machine -/

/-- The state after reset meets the invariant. -/
def Obligations.ResetMeetsTheInvariant : Prop := State.reset.Inv

/-- Every step keeps the invariant: well-formed parameters, canonical memories inside their spaces, readable slots, a bounded
run, histories that agree (R7, R17, R20, R23, R45, R66, R137). -/
def Obligations.StepKeepsTheInvariant : Prop :=
  ∀ s s' : State, s.Inv → step s = .next s' → s'.Inv

/-- R147, R148: no state that meets the invariant faults, whatever the event and the input values, and inside a run every step
answers a next state. -/
def Obligations.NothingFaultsUnderTheInvariant : Prop :=
  ∀ s : State, s.Inv → (∀ f, step s ≠ .fault f) ∧ (s.run ≠ none → ∃ s', step s = .next s')

/-- R59, R146 (decisions D28, D32, D36): `delta` is always the sum of the steps returned to the foreground since the last read,
from every state in which it is, and a step that returns the value of a read returns exactly that sum: so no step is lost and
none is returned twice. -/
def Obligations.DeltaHoldsExactlyTheUnreadSteps : Prop :=
  ∀ s s' : State, s.dec.delta = unreadSteps s.replies → step s = .next s' →
    s'.dec.delta = unreadSteps s'.replies ∧
    ∀ v, s'.replies = .delta v :: s.replies → v = unreadSteps s.replies

/-- R44, R172: no step changes the parameters, and no step of a run changes the program, `PLEN`, `t32` or `u32`. -/
def Obligations.RunInputsAreConstant : Prop :=
  ∀ s s' : State, step s = .next s' →
    s'.cfg = s.cfg ∧
    ∀ r, s.run = some r →
      s'.prog = s.prog ∧ ∀ r', s'.run = some r' → r'.plen = r.plen ∧ r'.t32 = r.t32 ∧ r'.u32 = r.u32

/-- R13 (decision D31): a run is one atomic event to every other: while it is in progress a step takes no pending event and
changes nothing but the run and, when it stops, the replies. -/
def Obligations.EventsWaitForTheRun : Prop :=
  ∀ (s s' : State) (r : Run), s.run = some r → step s = .next s' →
    s' = { s with run := s'.run, replies := s'.replies } ∧ (s'.run ≠ none → s'.replies = s.replies)

/-- R165: between events every register holds its value. -/
def Obligations.IdleMachineHoldsItsState : Prop :=
  ∀ s : State, s.run = none → s.pending = [] → step s = .next s

/-- R60: only the host's write, issued from the producer context between runs, changes `PROG`. -/
def Obligations.OnlyTheHostWritesTheProgram : Prop :=
  ∀ s s' : State, step s = .next s' → s'.prog ≠ s.prog →
    ∃ offset v rest, s.run = none ∧ s.pending = (.producer, .writeProg offset v) :: rest

/-- R60: the host's write of one byte of `PROG` is seen by every later read, and no other byte and nothing else changes. -/
def Obligations.HostWriteSetsOneProgramByte : Prop :=
  ∀ (s : State) (offset : BitVec 10) (v : Byte) (rest : List (Context × Event)), s.Inv →
    s.awaits (.writeProg offset v) rest →
    ∃ prog, step s = .next { s with pending := rest, prog := prog } ∧
      prog.read offset.toNat = v ∧ ∀ a, a ≠ offset.toNat → prog.read a = s.prog.read a

/-- R41, R173: from the first `fillSample` on, the clip table and clip memory never change; and a `fillSample` that answers
marks them so. -/
def Obligations.ClipsAreReadOnlyOncePlayed : Prop :=
  (∀ s s' : State, s.resetDone = true → s.clipsFixed = true → step s = .next s' →
    s'.clipTab = s.clipTab ∧ s'.clipMem = s.clipMem ∧ s'.clipsFixed = true) ∧
  (∀ (s s' : State) (k : BitVec 8) (rest : List (Context × Event)), s.awaits (.fillSample k) rest →
    step s = .next s' → s'.clipsFixed = true ∧ s'.clipTab = s.clipTab ∧ s'.clipMem = s.clipMem)

/-- R156, R158: after `reset`, an event of the foreground context changes the decoder's registers and nothing else, and an
event of the producer context changes none of them but `delta`, and `delta` only by `readEncoderDelta`. -/
def Obligations.ContextsOwnTheirState : Prop :=
  ∀ (s s' : State) (c : Context) (e : Event) (rest : List (Context × Event)), s.run = none → s.resetDone = true →
    s.pending = (c, e) :: rest → step s = .next s' →
    (c = .foreground → s' = { s with pending := rest, dec := s'.dec, replies := s'.replies }) ∧
    (c = .producer → s'.dec = { s.dec with delta := s'.dec.delta } ∧ (e ≠ .readEncoderDelta → s'.dec = s.dec))

/-- R31, R32, R36: after `reset`, `DEBOUNCE_CYCLES` is written only by `setDebounce`, a counter only by `button_poll`, and the
settled levels only by an `encoder_poll` that accepts. -/
def Obligations.RegistersAreWrittenOnlyByTheirEvents : Prop :=
  ∀ s s' : State, s.resetDone = true → step s = .next s' →
    (s'.deb.cycles ≠ s.deb.cycles →
      ∃ v rest, s.pending = (.producer, .setDebounce v) :: rest ∧ s'.deb.cycles = v) ∧
    (s'.deb.cnt ≠ s.deb.cnt → ∃ raw rest, s.pending = (.producer, .buttonPoll raw) :: rest) ∧
    (s'.dec.sA ≠ s.dec.sA ∨ s'.dec.sB ≠ s.dec.sB →
      ∃ a b rest, s.pending = (.foreground, .encoderPoll a b) :: rest ∧ s'.dec.accepts = true ∧
        s'.dec.sA = a ∧ s'.dec.sB = b)

/-- R167, R43 (decisions D29, D24, D33): `reset` sets every register to its value of R43, keeps the memories and the
parameters, and is accepted once only. -/
def Obligations.ResetSetsEveryRegister : Prop :=
  ∀ (s : State) (rest : List (Context × Event)), s.run = none → s.pending = (.boot, .reset) :: rest →
    (s.resetDone = true → step s = .refused .secondReset) ∧
    (s.resetDone = false → ∃ s', step s = .next s' ∧
      s'.clip.pos = 0 ∧ s'.clip.frac = 0 ∧ s'.clip.last = 0x80#8 ∧
      s'.deb.cycles = 100#8 ∧ (∀ i : Fin 7, s'.deb.cnt[i] = 0) ∧
      s'.dec.hA32 = 0 ∧ s'.dec.hB32 = 0 ∧ s'.dec.hA8 = 0 ∧ s'.dec.hB8 = 0 ∧
      s'.dec.sA = false ∧ s'.dec.sB = false ∧ s'.dec.delta = 0 ∧ s'.run = none ∧
      s'.cfg = s.cfg ∧ s'.prog = s.prog ∧ s'.clipTab = s.clipTab ∧ s'.clipMem = s.clipMem ∧ s'.outBuf = s.outBuf ∧
      s'.pending = rest ∧ s'.resetDone = true)

/-- R171 (with entry U16): a host that breaks duty HD1, HD2, HD4, HD7 or HD8 is refused, and an unpopulated slot is not
played (R170); the model's reading of "a model refuses the launch" (logs 9, 10). The `clipNotReadable` clauses are the model's
reading of R66 (log 12) for a memory it places at address 0 (log 31). For the two boot-time writes the events and their owner,
the context `boot`, are the model's own choice (log 11), so the `wrongContext` clause on them rests on that choice and on no
duty. -/
def Obligations.BrokenDutiesAreRefused : Prop :=
  ∀ (s : State) (c : Context) (e : Event) (rest : List (Context × Event)), s.run = none → s.pending = (c, e) :: rest →
    (s.resetDone = false → e ≠ .reset → step s = .refused .eventBeforeReset) ∧
    (s.resetDone = true → c ≠ e.owner → step s = .refused .wrongContext) ∧
    (s.resetDone = true → c = e.owner →
      (∀ plen t u, e = .evaluate plen t u → maxProgramLen < plen.toNat → step s = .refused .plenTooLarge) ∧
      (∀ slot base len, e = .writeSlot slot base len → s.clipsFixed = true → step s = .refused .clipsAlreadyFixed) ∧
      (∀ addr v, e = .writeClip addr v → s.clipsFixed = true → step s = .refused .clipsAlreadyFixed) ∧
      (∀ slot base len, e = .writeSlot slot base len → s.clipsFixed = false →
        2 ^ s.cfg.clipAddrW ≤ base ∨ 0 < len.toNat ∧ s.cfg.clipMemSize < base + len.toNat → step s = .refused .clipNotReadable) ∧
      (∀ addr v, e = .writeClip addr v → s.clipsFixed = false →
        s.cfg.clipMemSize ≤ addr → step s = .refused .clipNotReadable) ∧
      (∀ k, e = .fillSample k → k.toNat < nClips → s.slot k = none → step s = .refused .slotNotPopulated))

/-- Before the first `fillSample` a boot-time write populates exactly its slot, or sets exactly its byte of clip memory
(R170, R47, R48). The two events are the model's own form of what R170 describes and no rule names (log 11, DESIGN CHOICE);
the bounds within which they are accepted are log 12's (R66), for a memory the model places at address 0 (log 31, DESIGN
CHOICE). -/
def Obligations.BootWritesPopulateTheClips : Prop :=
  (∀ (s : State) (slot : BitVec 5) (base : Nat) (len : BitVec 32) (rest : List (Context × Event)),
    s.awaits (.writeSlot slot base len) rest → s.clipsFixed = false → base < 2 ^ s.cfg.clipAddrW →
    len.toNat = 0 ∨ base + len.toNat ≤ s.cfg.clipMemSize →
    ∃ tab, step s = .next { s with pending := rest, clipTab := tab } ∧
      ∀ k : BitVec 8, ({ s with clipTab := tab } : State).slot k =
        if k.toNat = slot.toNat then some { base := base, len := len } else s.slot k) ∧
  (∀ (s : State) (addr : Nat) (v : Byte) (rest : List (Context × Event)), s.Inv →
    s.awaits (.writeClip addr v) rest → s.clipsFixed = false → addr < s.cfg.clipMemSize →
    ∃ mem, step s = .next { s with pending := rest, clipMem := mem } ∧
      mem.read addr = v ∧ ∀ a, a ≠ addr → mem.read a = s.clipMem.read a)

/-! ## The ClipPlayer -/

/-- R119 (decision D15): the interpolated byte lies between the two source samples, is the first at `frac = 0`, and is the
weighted sum rounded down. -/
def Obligations.InterpolationLiesBetweenItsSamples : Prop :=
  ∀ (s0 s1 : Byte) (frac : Fin 5),
    min s0.toNat s1.toNat ≤ (interpolate s0 s1 frac).toNat ∧
    (interpolate s0 s1 frac).toNat ≤ max s0.toNat s1.toNat ∧
    (frac = 0 → interpolate s0 s1 frac = s0) ∧
    (interpolate s0 s1 frac).toNat * 5 ≤ s0.toNat * (5 - frac.val) + s1.toNat * frac.val ∧
    s0.toNat * (5 - frac.val) + s1.toNat * frac.val < (interpolate s0 s1 frac).toNat * 5 + 5

/-- R118, R120, R126 (decisions D15, D18): before completion a `clipStep` reads the samples at `pos` and `pos + 1` of the clip,
returns their interpolation, leaves it in `last`, and advances the phase `pos × 5 + frac` by one; whatever clip was played
before (R125, decision D21). -/
def Obligations.ClipStepAdvancesOneOutputSample : Prop :=
  ∀ (s : State) (k : BitVec 8) (c : ClipSlot), s.Inv → s.slot k = some c → s.clip.pos.toNat + 2 < c.len.toNat →
    ∃ p, s.clipStep k =
        .ok (interpolate (s.clipMem.read (c.base + s.clip.pos.toNat)) (s.clipMem.read (c.base + (s.clip.pos.toNat + 1)))
          s.clip.frac, false, p) ∧
      p.last = interpolate (s.clipMem.read (c.base + s.clip.pos.toNat))
        (s.clipMem.read (c.base + (s.clip.pos.toNat + 1))) s.clip.frac ∧
      p.pos.toNat * 5 + p.frac.val = s.clip.pos.toNat * 5 + s.clip.frac.val + 1

/-- R117, R118, R123, R124 (decisions D16, D17): a call that finds its clip complete, by an index of 32 or more or by
`pos + 2 >= ClipLen`, fills the whole buffer with 0x80, returns `done = 1` and resets the counters; no other register
and no other byte of memory changes. -/
def Obligations.CompleteClipFillsSilence : Prop :=
  ∀ (s : State) (k : BitVec 8) (rest : List (Context × Event)), s.Inv → s.awaits (.fillSample k) rest →
    (nClips ≤ k.toNat ∨ ∃ c, s.slot k = some c ∧ c.len.toNat ≤ s.clip.pos.toNat + 2) →
    ∃ buf, step s = .next { s with
        pending := rest, clip := { pos := 0, frac := 0, last := 0x80#8 }, outBuf := buf, clipsFixed := true
        replies := .filled true :: s.replies } ∧
      (∀ j, j < s.cfg.bufferSize → buf.read j = 0x80#8) ∧
      ∀ j, s.cfg.bufferSize ≤ j → buf.read j = s.outBuf.read j

/-- R121 (decision D20): one `fillSample` is a sequence of `clipStep`s, one an index in rising order, up to the first that
completes or the end of the buffer; the rest of the buffer is padded with 0x80 and no register changes in it; `done` is 1
exactly when a step completed; nothing but the buffer and the ClipPlayer's registers changes. -/
def Obligations.FillSampleIsClipStepsThenPadding : Prop :=
  ∀ (s : State) (k : BitVec 8) (rest : List (Context × Event)), s.Inv → s.awaits (.fillSample k) rest →
    (nClips ≤ k.toNat ∨ s.slot k ≠ none) →
    ∃ (outs : List (Byte × Bool)) (t : State) (done : Bool) (buf : Memory),
      State.clipSteps k outs.length s = .ok (outs, t) ∧
      (∀ o ∈ outs.dropLast, o.2 = false) ∧ outs.length ≤ s.cfg.bufferSize ∧
      (done = true ↔ ∃ o ∈ outs, o.2 = true) ∧ (done = false → outs.length = s.cfg.bufferSize) ∧
      step s = .next { s with
        pending := rest, clip := t.clip, outBuf := buf, clipsFixed := true, replies := .filled done :: s.replies } ∧
      (∀ j, j < s.cfg.bufferSize → buf.read j = ((outs[j]?).map (·.1)).getD 0x80#8) ∧
      ∀ j, s.cfg.bufferSize ≤ j → buf.read j = s.outBuf.read j

/-- R122 (a derivation of the spec's own): from `pos = 0`, `frac = 0` a clip of length `L >= 2` gives exactly `(L - 2) × 5`
interpolated samples, and the next `clipStep` completes and resets the counters. -/
def Obligations.ClipPlaysItsExactCount : Prop :=
  ∀ (s : State) (k : BitVec 8) (c : ClipSlot), s.Inv → s.slot k = some c → 2 ≤ c.len.toNat →
    s.clip.pos = 0 → s.clip.frac = 0 →
    ∃ (outs : List (Byte × Bool)) (t : State),
      State.clipSteps k ((c.len.toNat - 2) * 5 + 1) s = .ok (outs ++ [(0x80#8, true)], t) ∧
      outs.length = (c.len.toNat - 2) * 5 ∧ (∀ o ∈ outs, o.2 = false) ∧
      t.clip = { pos := 0, frac := 0, last := 0x80#8 }

/-! ## InputCapture -/

/-- R128, R134: one `button_poll` sets each counter from its own line alone: `DEBOUNCE_CYCLES` if pressed, else one less and
never below 0; nothing else changes. -/
def Obligations.ButtonPollUpdatesEachCounter : Prop :=
  ∀ (s : State) (raw : BitVec 7) (rest : List (Context × Event)), s.awaits (.buttonPoll raw) rest →
    ∃ cnt, step s = .next { s with pending := rest, deb := { s.deb with cnt := cnt } } ∧
      ∀ i : Fin 7, cnt[i].toNat = if raw.getLsbD i then s.deb.cycles.toNat else s.deb.cnt[i].toNat - 1

/-- R130, R129, R33 (decisions D22, D23): `readButtons` returns the mask whose bit 0 is the strum, bits 1 to 5 the frets and bit
`WHAMMY_BIT` the lever, each 1 exactly when its counter is above 0, and every other bit 0; it writes nothing. -/
def Obligations.ReadButtonsReturnsPressedMask : Prop :=
  ∀ (s : State) (rest : List (Context × Event)), s.cfg.wf = true → s.awaits .readButtons rest →
    ∃ m : Byte, step s = .next { s with pending := rest, replies := .mask m :: s.replies } ∧
      (∀ i : Fin 7, i.val < 6 → (m.getLsbD i = true ↔ 0 < s.deb.cnt[i].toNat)) ∧
      (m.getLsbD s.cfg.whammyBit = true ↔ 0 < s.deb.cnt[6].toNat) ∧
      ∀ j, 6 ≤ j → j ≠ s.cfg.whammyBit → m.getLsbD j = false

/-- R131: `setDebounce(v)` writes `DEBOUNCE_CYCLES` and touches no counter and nothing else; the new value is used by the next
`button_poll`. -/
def Obligations.SetDebounceWritesOnlyTheCycles : Prop :=
  ∀ (s : State) (v : Byte) (rest : List (Context × Event)), s.awaits (.setDebounce v) rest →
    ∃ s', step s = .next s' ∧ s' = { s with pending := rest, deb := { s.deb with cycles := v } } ∧
      ∀ raw more, rest = (.producer, .buttonPoll raw) :: more →
        ∃ s'', step s' = .next s'' ∧ ∀ i : Fin 7, raw.getLsbD i = true → s''.deb.cnt[i] = v

/-- R132 (a derivation of the spec's own; conflict C2, decision D22): after a pressed poll and `j` released polls of a button,
whatever the other lines do, its counter is `max(D - j, 0)`. -/
def Obligations.ReleaseIsHeldForTheCycles : Prop :=
  ∀ (d : Debouncer) (press : BitVec 7) (released : List (BitVec 7)) (i : Fin 7), press.getLsbD i = true →
    (∀ raw ∈ released, raw.getLsbD i = false) →
    (((d.poll press).pollAll released).cnt[i]).toNat = d.cycles.toNat - released.length

/-- R136 to R141 (decisions D27, D28): an `encoder_poll` shifts the new sample into bit 0 of each history, emits a step exactly
when all four histories are settled with A high and the stored A low, `+1` with B high and `-1` with B low, stores the
settled levels exactly when it accepts, adds the step to `delta` modulo 2^32, and changes nothing else. -/
def Obligations.EncoderPollDecodesSettledRise : Prop :=
  ∀ (s : State) (a b : Bool) (rest : List (Context × Event)), s.awaits (.encoderPoll a b) rest →
    ∃ (st : EncoderStep) (d : Decoder),
      step s = .next { s with pending := rest, dec := d, replies := .polled st :: s.replies } ∧
      (∀ i, i < 32 → d.hA32.getLsbD i = (if i = 0 then a else s.dec.hA32.getLsbD (i - 1)) ∧
        d.hB32.getLsbD i = (if i = 0 then b else s.dec.hB32.getLsbD (i - 1))) ∧
      (∀ i, i < 8 → d.hA8.getLsbD i = (if i = 0 then a else s.dec.hA8.getLsbD (i - 1)) ∧
        d.hB8.getLsbD i = (if i = 0 then b else s.dec.hB8.getLsbD (i - 1))) ∧
      (st = .plus ↔ d.hA32 = 0xFFFFFFFF#32 ∧ d.hA8 = 0xFF#8 ∧ d.hB32 = 0xFFFFFFFF#32 ∧ d.hB8 = 0xFF#8 ∧
        s.dec.sA = false) ∧
      (st = .minus ↔ d.hA32 = 0xFFFFFFFF#32 ∧ d.hA8 = 0xFF#8 ∧ d.hB32 = 0#32 ∧ d.hB8 = 0#8 ∧ s.dec.sA = false) ∧
      (d.accepts = true → d.sA = a ∧ d.sB = b) ∧ (d.accepts = false → d.sA = s.dec.sA ∧ d.sB = s.dec.sB) ∧
      d.delta = s.dec.delta + (match st with
        | .plus => 1#32
        | .zero => 0#32
        | .minus => 0xFFFFFFFF#32)

/-- R143 (a derivation of the spec's own): with A low and B constant for at least 32 polls, then A high for at least 32, every
poll emits 0 but the 32nd high one, which emits +1 if B is high and -1 if B is low; from every earlier state of the decoder. -/
def Obligations.CleanRiseEmitsOneStep : Prop :=
  ∀ (d : Decoder) (b : Bool) (k m : Nat),
    (d.pollAll (List.replicate (32 + k) (false, b) ++ List.replicate (32 + m) (true, b))).1 =
      List.replicate (63 + k) .zero ++ (if b then .plus else .minus) :: List.replicate m .zero

/-- R144 (a derivation of the spec's own): a poll emits a step only if it and the 31 polls before it all sampled the same two
levels, so lines that never settle yield only zeros. -/
def Obligations.UnsettledLinesEmitNoStep : Prop :=
  ∀ (d : Decoder) (before : List (Bool × Bool)) (a b : Bool), before.length = 31 →
    (((d.pollAll before).2.poll a b).1 ≠ .zero ∨ ((d.pollAll before).2.poll a b).2.accepts = true) →
    ∀ p ∈ before, p = (a, b)

/-- R142, R58: `readEncoderDelta` returns `delta` and clears it in one step, and changes nothing else; a read with no step
since returns 0. -/
def Obligations.ReadEncoderDeltaReturnsAndClears : Prop :=
  ∀ (s : State) (rest : List (Context × Event)), s.awaits .readEncoderDelta rest →
    ∃ s', step s = .next s' ∧
      s' = { s with pending := rest, dec := { s.dec with delta := 0 }, replies := .delta s.dec.delta :: s.replies } ∧
      ∀ more, rest = (.producer, .readEncoderDelta) :: more →
        ∃ s'', step s' = .next s'' ∧ s''.replies = .delta 0 :: .delta s.dec.delta :: s.replies
end

