-- ==== Sys2Proof/Laws/State.lean ====
section
/-! SUPPORT. One lemma per field per named update of the state's records, each true by unfolding the update once, so that no
later proof unfolds one. -/

namespace Sys2Proof.Machine

/-! ## The run -/

@[simp] theorem Run.advance_pc (r : Run) : r.advance.pc = r.pc + 1 := rfl
@[simp] theorem Run.advance_stack (r : Run) : r.advance.stack = r.stack := rfl
@[simp] theorem Run.advance_t32 (r : Run) : r.advance.t32 = r.t32 := rfl
@[simp] theorem Run.advance_u32 (r : Run) : r.advance.u32 = r.u32 := rfl
@[simp] theorem Run.advance_plen (r : Run) : r.advance.plen = r.plen := rfl
@[simp] theorem Run.advance_stopped (r : Run) : r.advance.stopped = r.stopped := rfl

@[simp] theorem Run.halt_pc (r : Run) : r.halt.pc = r.pc := rfl
@[simp] theorem Run.halt_stack (r : Run) : r.halt.stack = r.stack := rfl
@[simp] theorem Run.halt_t32 (r : Run) : r.halt.t32 = r.t32 := rfl
@[simp] theorem Run.halt_u32 (r : Run) : r.halt.u32 = r.u32 := rfl
@[simp] theorem Run.halt_plen (r : Run) : r.halt.plen = r.plen := rfl
@[simp] theorem Run.halt_stopped (r : Run) : r.halt.stopped = true := rfl

theorem Run.push_eq (cap : Nat) (v : Word) (r : Run) :
    r.push cap v = { r with stack := if r.stack.length < cap then v :: r.stack else r.stack } := by
  unfold Run.push; split <;> rfl

@[simp] theorem Run.push_stack (cap : Nat) (v : Word) (r : Run) :
    (r.push cap v).stack = if r.stack.length < cap then v :: r.stack else r.stack := by rw [Run.push_eq]
@[simp] theorem Run.push_pc (cap : Nat) (v : Word) (r : Run) : (r.push cap v).pc = r.pc := by rw [Run.push_eq]
@[simp] theorem Run.push_t32 (cap : Nat) (v : Word) (r : Run) : (r.push cap v).t32 = r.t32 := by rw [Run.push_eq]
@[simp] theorem Run.push_u32 (cap : Nat) (v : Word) (r : Run) : (r.push cap v).u32 = r.u32 := by rw [Run.push_eq]
@[simp] theorem Run.push_plen (cap : Nat) (v : Word) (r : Run) : (r.push cap v).plen = r.plen := by rw [Run.push_eq]
@[simp] theorem Run.push_stopped (cap : Nat) (v : Word) (r : Run) : (r.push cap v).stopped = r.stopped := by
  rw [Run.push_eq]

/-- The stack a binary operator leaves (R95). -/
def binaryStack (f : Word → Word → Word) : List Word → List Word
  | b :: a :: rest => f a b :: rest
  | stack => stack

theorem Run.binary_eq (f : Word → Word → Word) (r : Run) : r.binary f = { r with stack := binaryStack f r.stack } := by
  unfold Run.binary binaryStack; split <;> simp_all

@[simp] theorem Run.binary_stack (f : Word → Word → Word) (r : Run) : (r.binary f).stack = binaryStack f r.stack := by
  rw [Run.binary_eq]
@[simp] theorem Run.binary_pc (f : Word → Word → Word) (r : Run) : (r.binary f).pc = r.pc := by rw [Run.binary_eq]
@[simp] theorem Run.binary_t32 (f : Word → Word → Word) (r : Run) : (r.binary f).t32 = r.t32 := by rw [Run.binary_eq]
@[simp] theorem Run.binary_u32 (f : Word → Word → Word) (r : Run) : (r.binary f).u32 = r.u32 := by rw [Run.binary_eq]
@[simp] theorem Run.binary_plen (f : Word → Word → Word) (r : Run) : (r.binary f).plen = r.plen := by
  rw [Run.binary_eq]
@[simp] theorem Run.binary_stopped (f : Word → Word → Word) (r : Run) : (r.binary f).stopped = r.stopped := by
  rw [Run.binary_eq]

/-- The stack `SWP` leaves (R110). -/
def swappedStack : List Word → List Word
  | x :: y :: rest => y :: x :: rest
  | stack => stack

theorem Run.swap_eq (r : Run) : r.swap = { r with stack := swappedStack r.stack } := by
  unfold Run.swap swappedStack; split <;> simp_all

@[simp] theorem Run.swap_stack (r : Run) : r.swap.stack = swappedStack r.stack := by rw [Run.swap_eq]
@[simp] theorem Run.swap_pc (r : Run) : r.swap.pc = r.pc := by rw [Run.swap_eq]
@[simp] theorem Run.swap_t32 (r : Run) : r.swap.t32 = r.t32 := by rw [Run.swap_eq]
@[simp] theorem Run.swap_u32 (r : Run) : r.swap.u32 = r.u32 := by rw [Run.swap_eq]
@[simp] theorem Run.swap_plen (r : Run) : r.swap.plen = r.plen := by rw [Run.swap_eq]
@[simp] theorem Run.swap_stopped (r : Run) : r.swap.stopped = r.stopped := by rw [Run.swap_eq]

/-- The stack `DUP` leaves (R111). -/
def duplicatedStack (cap : Nat) : List Word → List Word
  | [] => []
  | x :: rest => if (x :: rest).length < cap then x :: x :: rest else x :: rest

theorem Run.duplicate_eq (cap : Nat) (r : Run) :
    r.duplicate cap = { r with stack := duplicatedStack cap r.stack } := by
  obtain ⟨pc, stack, t, u, plen, stopped⟩ := r
  cases stack with
  | nil => rfl
  | cons x rest => simp only [Run.duplicate, Run.push_eq, duplicatedStack]

@[simp] theorem Run.duplicate_stack (cap : Nat) (r : Run) : (r.duplicate cap).stack = duplicatedStack cap r.stack := by
  rw [Run.duplicate_eq]
@[simp] theorem Run.duplicate_pc (cap : Nat) (r : Run) : (r.duplicate cap).pc = r.pc := by rw [Run.duplicate_eq]
@[simp] theorem Run.duplicate_t32 (cap : Nat) (r : Run) : (r.duplicate cap).t32 = r.t32 := by rw [Run.duplicate_eq]
@[simp] theorem Run.duplicate_u32 (cap : Nat) (r : Run) : (r.duplicate cap).u32 = r.u32 := by rw [Run.duplicate_eq]
@[simp] theorem Run.duplicate_plen (cap : Nat) (r : Run) : (r.duplicate cap).plen = r.plen := by
  rw [Run.duplicate_eq]
@[simp] theorem Run.duplicate_stopped (cap : Nat) (r : Run) : (r.duplicate cap).stopped = r.stopped := by
  rw [Run.duplicate_eq]

@[simp] theorem vmReset_pc (plen : BitVec 11) (t u : BitVec 64) : (vmReset plen t u).pc = 0 := rfl
@[simp] theorem vmReset_stack (plen : BitVec 11) (t u : BitVec 64) : (vmReset plen t u).stack = [] := rfl
@[simp] theorem vmReset_t32 (plen : BitVec 11) (t u : BitVec 64) : (vmReset plen t u).t32 = latchTime t := rfl
@[simp] theorem vmReset_u32 (plen : BitVec 11) (t u : BitVec 64) : (vmReset plen t u).u32 = latchTime u := rfl
@[simp] theorem vmReset_plen (plen : BitVec 11) (t u : BitVec 64) : (vmReset plen t u).plen = plen := rfl
@[simp] theorem vmReset_stopped (plen : BitVec 11) (t u : BitVec 64) : (vmReset plen t u).stopped = false := rfl

/-! ## The ClipPlayer -/

@[simp] theorem ClipPlayer.complete_eq (p : ClipPlayer) : p.complete = ClipPlayer.atReset := rfl

@[simp] theorem ClipPlayer.produce_last (p : ClipPlayer) (out : Byte) : (p.produce out).last = out := by
  unfold ClipPlayer.produce; split <;> rfl
@[simp] theorem ClipPlayer.produce_pos (p : ClipPlayer) (out : Byte) :
    (p.produce out).pos = if p.frac = 4 then p.pos + 1 else p.pos := by unfold ClipPlayer.produce; split <;> rfl
@[simp] theorem ClipPlayer.produce_frac (p : ClipPlayer) (out : Byte) :
    (p.produce out).frac = if p.frac = 4 then 0 else p.frac + 1 := by unfold ClipPlayer.produce; split <;> rfl

/-! ## The debouncer -/

@[simp] theorem Debouncer.poll_cycles (d : Debouncer) (raw : BitVec 7) : (d.poll raw).cycles = d.cycles := rfl
@[simp] theorem Debouncer.poll_cnt (d : Debouncer) (raw : BitVec 7) (i : Nat) (hi : i < nButtons) :
    (d.poll raw).cnt[i] = countPoll d.cycles d.cnt[i] (raw.getLsbD i) := by
  simp only [Debouncer.poll, Vector.getElem_ofFn]; rfl
@[simp] theorem Debouncer.setCycles_cycles (d : Debouncer) (v : Byte) : (d.setCycles v).cycles = v := rfl
@[simp] theorem Debouncer.setCycles_cnt (d : Debouncer) (v : Byte) : (d.setCycles v).cnt = d.cnt := rfl

/-! ## The quadrature decoder -/

@[simp] theorem Decoder.shift_hA32 (d : Decoder) (a b : Bool) : (d.shift a b).hA32 = shiftIn32 d.hA32 a := rfl
@[simp] theorem Decoder.shift_hB32 (d : Decoder) (a b : Bool) : (d.shift a b).hB32 = shiftIn32 d.hB32 b := rfl
@[simp] theorem Decoder.shift_hA8 (d : Decoder) (a b : Bool) : (d.shift a b).hA8 = shiftIn8 d.hA8 a := rfl
@[simp] theorem Decoder.shift_hB8 (d : Decoder) (a b : Bool) : (d.shift a b).hB8 = shiftIn8 d.hB8 b := rfl
@[simp] theorem Decoder.shift_sA (d : Decoder) (a b : Bool) : (d.shift a b).sA = d.sA := rfl
@[simp] theorem Decoder.shift_sB (d : Decoder) (a b : Bool) : (d.shift a b).sB = d.sB := rfl
@[simp] theorem Decoder.shift_delta (d : Decoder) (a b : Bool) : (d.shift a b).delta = d.delta := rfl

theorem Decoder.settle_eq (d : Decoder) : d.settle =
    { d with sA := if d.accepts then d.hA32.getLsbD 0 else d.sA,
             sB := if d.accepts then d.hB32.getLsbD 0 else d.sB } := by
  unfold Decoder.settle; split <;> simp_all

@[simp] theorem Decoder.settle_hA32 (d : Decoder) : d.settle.hA32 = d.hA32 := by rw [Decoder.settle_eq]
@[simp] theorem Decoder.settle_hB32 (d : Decoder) : d.settle.hB32 = d.hB32 := by rw [Decoder.settle_eq]
@[simp] theorem Decoder.settle_hA8 (d : Decoder) : d.settle.hA8 = d.hA8 := by rw [Decoder.settle_eq]
@[simp] theorem Decoder.settle_hB8 (d : Decoder) : d.settle.hB8 = d.hB8 := by rw [Decoder.settle_eq]
@[simp] theorem Decoder.settle_sA (d : Decoder) :
    d.settle.sA = if d.accepts then d.hA32.getLsbD 0 else d.sA := by rw [Decoder.settle_eq]
@[simp] theorem Decoder.settle_sB (d : Decoder) :
    d.settle.sB = if d.accepts then d.hB32.getLsbD 0 else d.sB := by rw [Decoder.settle_eq]
@[simp] theorem Decoder.settle_delta (d : Decoder) : d.settle.delta = d.delta := by rw [Decoder.settle_eq]

@[simp] theorem Decoder.accumulate_hA32 (d : Decoder) (st : EncoderStep) : (d.accumulate st).hA32 = d.hA32 := rfl
@[simp] theorem Decoder.accumulate_hB32 (d : Decoder) (st : EncoderStep) : (d.accumulate st).hB32 = d.hB32 := rfl
@[simp] theorem Decoder.accumulate_hA8 (d : Decoder) (st : EncoderStep) : (d.accumulate st).hA8 = d.hA8 := rfl
@[simp] theorem Decoder.accumulate_hB8 (d : Decoder) (st : EncoderStep) : (d.accumulate st).hB8 = d.hB8 := rfl
@[simp] theorem Decoder.accumulate_sA (d : Decoder) (st : EncoderStep) : (d.accumulate st).sA = d.sA := rfl
@[simp] theorem Decoder.accumulate_sB (d : Decoder) (st : EncoderStep) : (d.accumulate st).sB = d.sB := rfl
@[simp] theorem Decoder.accumulate_delta (d : Decoder) (st : EncoderStep) :
    (d.accumulate st).delta = d.delta + st.value := rfl

@[simp] theorem Decoder.readClear_value (d : Decoder) : d.readClear.1 = d.delta := rfl
@[simp] theorem Decoder.readClear_registers (d : Decoder) : d.readClear.2 = { d with delta := 0 } := rfl

/-! ## The output buffer -/

@[simp] theorem State.outWrite_outBuf (s : State) (j : Nat) (v : Byte) :
    (s.outWrite j v).outBuf = s.outBuf.write j v := rfl
@[simp] theorem State.outWrite_cfg (s : State) (j : Nat) (v : Byte) : (s.outWrite j v).cfg = s.cfg := rfl
@[simp] theorem State.outWrite_run (s : State) (j : Nat) (v : Byte) : (s.outWrite j v).run = s.run := rfl
@[simp] theorem State.outWrite_clip (s : State) (j : Nat) (v : Byte) : (s.outWrite j v).clip = s.clip := rfl
@[simp] theorem State.outWrite_deb (s : State) (j : Nat) (v : Byte) : (s.outWrite j v).deb = s.deb := rfl
@[simp] theorem State.outWrite_dec (s : State) (j : Nat) (v : Byte) : (s.outWrite j v).dec = s.dec := rfl
@[simp] theorem State.outWrite_prog (s : State) (j : Nat) (v : Byte) : (s.outWrite j v).prog = s.prog := rfl
@[simp] theorem State.outWrite_clipTab (s : State) (j : Nat) (v : Byte) : (s.outWrite j v).clipTab = s.clipTab := rfl
@[simp] theorem State.outWrite_clipMem (s : State) (j : Nat) (v : Byte) : (s.outWrite j v).clipMem = s.clipMem := rfl
@[simp] theorem State.outWrite_resetDone (s : State) (j : Nat) (v : Byte) :
    (s.outWrite j v).resetDone = s.resetDone := rfl
@[simp] theorem State.outWrite_clipsFixed (s : State) (j : Nat) (v : Byte) :
    (s.outWrite j v).clipsFixed = s.clipsFixed := rfl
@[simp] theorem State.outWrite_pending (s : State) (j : Nat) (v : Byte) : (s.outWrite j v).pending = s.pending := rfl
@[simp] theorem State.outWrite_replies (s : State) (j : Nat) (v : Byte) : (s.outWrite j v).replies = s.replies := rfl

end Sys2Proof.Machine
end

