-- ==== Sys2Proof/Laws/Memory.lean ====
section
/-! SUPPORT. The laws of a memory: reading after a write, the canonical form kept by every operation, the space a memory fits,
and equal reads giving equal memories. -/

namespace Sys2Proof.Machine

theorem canonicalFrom_cons (lo k : Nat) (v : Byte) (rest : List Host.Cell) :
    canonicalFrom lo ((k, v) :: rest) = true ↔
      lo ≤ k ∧ v ≠ Memory.unlisted ∧ canonicalFrom (k + 1) rest = true := by
  simp [canonicalFrom, and_assoc]

theorem canonicalFrom_mono {lo lo' : Nat} {cells : List Host.Cell} (h : canonicalFrom lo cells = true) (hle : lo' ≤ lo) :
    canonicalFrom lo' cells = true := by
  cases cells with
  | nil => rfl
  | cons c rest =>
    obtain ⟨k, v⟩ := c
    rw [canonicalFrom_cons] at h ⊢
    exact ⟨hle.trans h.1, h.2⟩

/-- Below its first address a canonical list has nothing. -/
theorem lookupCell_below {lo a : Nat} {cells : List Host.Cell} (h : canonicalFrom lo cells = true) (ha : a < lo) :
    lookupCell cells a = Memory.unlisted := by
  induction cells generalizing lo with
  | nil => rfl
  | cons c rest ih =>
    obtain ⟨k, v⟩ := c
    rw [canonicalFrom_cons] at h
    have hk : k ≠ a := by omega
    simp only [lookupCell, if_neg hk]
    exact ih h.2.2 (by omega)

theorem lookupCell_placeCell_same {lo : Nat} (a : Nat) (v : Byte) {cells : List Host.Cell}
    (h : canonicalFrom lo cells = true) : lookupCell (placeCell a v cells) a = v := by
  induction cells generalizing lo with
  | nil => unfold placeCell; split <;> simp_all [lookupCell]
  | cons c rest ih =>
    obtain ⟨k, w⟩ := c
    have h' := (canonicalFrom_cons lo k w rest).1 h
    simp only [placeCell]
    by_cases h1 : a < k
    · have hne : k ≠ a := by omega
      rw [if_pos h1]
      split
      · rename_i hv
        simp only [lookupCell, if_neg hne]
        rw [hv]
        exact lookupCell_below h'.2.2 (by omega)
      · simp [lookupCell]
    · rw [if_neg h1]
      by_cases h2 : a = k
      · rw [if_pos h2]
        split
        · rename_i hv
          rw [hv]
          exact lookupCell_below h'.2.2 (by omega)
        · simp [lookupCell]
      · rw [if_neg h2]
        have hne : k ≠ a := fun h => h2 h.symm
        simp only [lookupCell, if_neg hne]
        exact ih h'.2.2

theorem lookupCell_placeCell_other {a b : Nat} (v : Byte) (cells : List Host.Cell) (hab : b ≠ a) :
    lookupCell (placeCell a v cells) b = lookupCell cells b := by
  have hba : a ≠ b := fun h => hab h.symm
  induction cells with
  | nil => unfold placeCell; split <;> simp [lookupCell, hba]
  | cons c rest ih =>
    obtain ⟨k, w⟩ := c
    simp only [placeCell]
    split
    · split <;> simp [lookupCell, hba]
    · split
      · rename_i hk
        subst hk
        split <;> simp [lookupCell, hba]
      · simp only [lookupCell, ih]

theorem canonicalFrom_placeCell {lo : Nat} (a : Nat) (v : Byte) {cells : List Host.Cell}
    (h : canonicalFrom lo cells = true) (hlo : lo ≤ a) : canonicalFrom lo (placeCell a v cells) = true := by
  induction cells generalizing lo with
  | nil =>
    unfold placeCell
    split
    · rfl
    · rename_i hv
      exact (canonicalFrom_cons lo a v []).2 ⟨hlo, hv, rfl⟩
  | cons c rest ih =>
    obtain ⟨k, w⟩ := c
    have h' := (canonicalFrom_cons lo k w rest).1 h
    simp only [placeCell]
    split
    · rename_i h1
      split
      · exact h
      · rename_i hv
        exact (canonicalFrom_cons _ _ _ _).2 ⟨hlo, hv, (canonicalFrom_cons _ _ _ _).2 ⟨h1, h'.2⟩⟩
    · rename_i h1
      split
      · rename_i h2
        subst h2
        split
        · exact canonicalFrom_mono h'.2.2 (by omega)
        · rename_i hv
          exact (canonicalFrom_cons _ _ _ _).2 ⟨hlo, hv, h'.2.2⟩
      · rename_i h2
        exact (canonicalFrom_cons _ _ _ _).2 ⟨h'.1, h'.2.1, ih h'.2.2 (by omega)⟩

theorem mem_placeCell {a : Nat} {v : Byte} {cells : List Host.Cell} {c : Host.Cell} (h : c ∈ placeCell a v cells) :
    c = (a, v) ∨ c ∈ cells := by
  induction cells with
  | nil => unfold placeCell at h; split at h <;> simp_all
  | cons d rest ih =>
    obtain ⟨k, w⟩ := d
    simp only [placeCell] at h
    split at h
    · split at h
      · exact .inr h
      · exact List.mem_cons.1 h
    · split at h
      · split at h
        · exact .inr (List.mem_cons_of_mem _ h)
        · rcases List.mem_cons.1 h with h | h
          · exact .inl h
          · exact .inr (List.mem_cons_of_mem _ h)
      · rcases List.mem_cons.1 h with h | h
        · exact .inr (h ▸ List.mem_cons_self)
        · exact (ih h).imp_right (List.mem_cons_of_mem _)

/-- A byte just written is read back (R53, R60). -/
theorem Memory.read_write_same {m : Memory} (h : m.wf = true) (a : Nat) (v : Byte) : (m.write a v).read a = v :=
  lookupCell_placeCell_same a v h

/-- A write leaves every other byte. -/
theorem Memory.read_write_other (m : Memory) {a b : Nat} (v : Byte) (hab : b ≠ a) :
    (m.write a v).read b = m.read b :=
  lookupCell_placeCell_other v m.cells hab

/-- A write keeps the canonical form. -/
theorem Memory.wf_write {m : Memory} (h : m.wf = true) (a : Nat) (v : Byte) : (m.write a v).wf = true :=
  canonicalFrom_placeCell a v h (Nat.zero_le a)

/-- A write inside a space keeps the memory inside it. -/
theorem Memory.fits_write {m : Memory} {size a : Nat} (h : m.fits size = true) (ha : a < size) (v : Byte) :
    (m.write a v).fits size = true := by
  simp only [Memory.fits, List.all_eq_true, decide_eq_true_eq] at h ⊢
  intro c hc
  rcases mem_placeCell hc with rfl | hc
  · exact ha
  · exact h c hc

theorem cells_ext {lo : Nat} {xs ys : List Host.Cell} (hx : canonicalFrom lo xs = true) (hy : canonicalFrom lo ys = true)
    (h : ∀ a, lookupCell xs a = lookupCell ys a) : xs = ys := by
  induction xs generalizing lo ys with
  | nil =>
    cases ys with
    | nil => rfl
    | cons d ys =>
      obtain ⟨j, w⟩ := d
      have hy' := (canonicalFrom_cons _ _ _ _).1 hy
      have := h j
      simp only [lookupCell, if_true] at this
      exact absurd this.symm hy'.2.1
  | cons c xs ih =>
    obtain ⟨k, v⟩ := c
    have hx' := (canonicalFrom_cons _ _ _ _).1 hx
    cases ys with
    | nil =>
      have := h k
      simp only [lookupCell, if_true] at this
      exact absurd this hx'.2.1
    | cons d ys =>
      obtain ⟨j, w⟩ := d
      have hy' := (canonicalFrom_cons _ _ _ _).1 hy
      rcases Nat.lt_trichotomy k j with hkj | rfl | hkj
      · have := h k
        simp only [lookupCell, if_true, if_neg (show ¬ j = k by omega)] at this
        rw [lookupCell_below hy'.2.2 (by omega)] at this
        exact absurd this hx'.2.1
      · have hv := h k
        simp only [lookupCell, if_true] at hv
        subst hv
        congr 1
        refine ih hx'.2.2 hy'.2.2 fun a => ?_
        have ha := h a
        by_cases hka : k = a
        · rw [lookupCell_below hx'.2.2 (by omega), lookupCell_below hy'.2.2 (by omega)]
        · simpa only [lookupCell, if_neg hka] using ha
      · have := h j
        simp only [lookupCell, if_true, if_neg (show ¬ k = j by omega)] at this
        rw [lookupCell_below hx'.2.2 (by omega)] at this
        exact absurd this.symm hy'.2.1

/-- Equal reads everywhere are equal data: the canonical form has one representative. -/
theorem Memory.ext_read {m n : Memory} (hm : m.wf = true) (hn : n.wf = true) (h : ∀ a, m.read a = n.read a) : m = n := by
  obtain ⟨xs⟩ := m
  obtain ⟨ys⟩ := n
  congr 1
  exact cells_ext hm hn h

end Sys2Proof.Machine
end

