-- ==== Sys2Proof/Laws/Exec.lean ====
section
/-! SUPPORT. What an opcode can do, said once: every arm of `exec` is one function of the run in progress, which keeps the
run's inputs, moves `pc` by one (or stops the run) and bounds the depth. Later proofs cite these and unfold no meaning. -/

namespace Sys2Proof.Machine

/-- The function of the run that each arm of `exec` applies. -/
def opcodeEffect (cap : Nat) : Instr → Run → Run
  | .lit n => fun r => (r.push cap (literalValue n)).advance
  | .t => fun r => (r.push cap r.t32).advance
  | .u => fun r => (r.push cap r.u32).advance
  | .and => fun r => (r.binary fAnd).advance
  | .or => fun r => (r.binary fOr).advance
  | .xor => fun r => (r.binary fXor).advance
  | .add => fun r => (r.binary fAdd).advance
  | .sub => fun r => (r.binary fSub).advance
  | .mul => fun r => (r.binary fMul).advance
  | .div => fun r => (r.binary fDiv).advance
  | .mod => fun r => (r.binary fMod).advance
  | .shl => fun r => (r.binary fShl).advance
  | .shr => fun r => (r.binary fShr).advance
  | .swp => fun r => r.swap.advance
  | .dup => fun r => (r.duplicate cap).advance
  | .endOp => Run.halt
  | .undef1F _ | .undef20 _ | .undef40 _ | .undef80 _ => Run.advance

theorem onRun_some {s : State} {r : Run} (h : s.run = some r) (f : Run → Run) :
    s.onRun f = .next { s with run := some (f r) } := by
  unfold State.onRun; rw [h]

theorem onRun_none {s : State} (h : s.run = none) (f : Run → Run) : s.onRun f = .refused .noRun := by
  unfold State.onRun; rw [h]

/-- If an opcode's effect answers a next state, a run was in progress and only it changed. -/
theorem onRun_next {s s' : State} {f : Run → Run} (h : s.onRun f = .next s') :
    ∃ r, s.run = some r ∧ s' = { s with run := some (f r) } := by
  cases hr : s.run with
  | none => rw [onRun_none hr] at h; cases h
  | some r => rw [onRun_some hr] at h; exact ⟨r, rfl, by cases h; rfl⟩

theorem exec_eq_onRun (i : Instr) (s : State) : exec i s = s.onRun (opcodeEffect s.cfg.stackCap i) := by
  cases i <;> rfl

/-- Inside a run every opcode answers a next state (R147). -/
theorem exec_some {s : State} {r : Run} (h : s.run = some r) (i : Instr) :
    exec i s = .next { s with run := some (opcodeEffect s.cfg.stackCap i r) } := by
  rw [exec_eq_onRun, onRun_some h]

/-- If an opcode answers a next state, a run was in progress and only it changed (R79, R156). -/
theorem exec_next {i : Instr} {s s' : State} (h : exec i s = .next s') :
    ∃ r, s.run = some r ∧ s' = { s with run := some (opcodeEffect s.cfg.stackCap i r) } := by
  rw [exec_eq_onRun] at h
  exact onRun_next h

@[simp] theorem opcodeEffect_t32 (cap : Nat) (i : Instr) (r : Run) : (opcodeEffect cap i r).t32 = r.t32 := by
  cases i <;> simp [opcodeEffect]
@[simp] theorem opcodeEffect_u32 (cap : Nat) (i : Instr) (r : Run) : (opcodeEffect cap i r).u32 = r.u32 := by
  cases i <;> simp [opcodeEffect]
@[simp] theorem opcodeEffect_plen (cap : Nat) (i : Instr) (r : Run) : (opcodeEffect cap i r).plen = r.plen := by
  cases i <;> simp [opcodeEffect]

theorem opcodeEffect_endOp (cap : Nat) (r : Run) : opcodeEffect cap .endOp r = r.halt := rfl

/-- Every opcode but `END` adds 1 to `pc` (R21, R83). -/
theorem opcodeEffect_pc (cap : Nat) {i : Instr} (h : i ≠ .endOp) (r : Run) : (opcodeEffect cap i r).pc = r.pc + 1 := by
  cases i <;> first | exact absurd rfl h | simp [opcodeEffect]

/-- Only `END` stops a run (R85). -/
theorem opcodeEffect_stopped (cap : Nat) {i : Instr} (h : i ≠ .endOp) (r : Run) :
    (opcodeEffect cap i r).stopped = r.stopped := by
  cases i <;> first | exact absurd rfl h | simp [opcodeEffect]

theorem binaryStack_length_le (f : Word → Word → Word) (stack : List Word) :
    (binaryStack f stack).length ≤ stack.length := by
  unfold binaryStack; split <;> simp

theorem swappedStack_length (stack : List Word) : (swappedStack stack).length = stack.length := by
  unfold swappedStack; split <;> simp

theorem duplicatedStack_length_le {cap : Nat} {stack : List Word} (h : stack.length ≤ cap) :
    (duplicatedStack cap stack).length ≤ cap := by
  cases stack with
  | nil => exact h
  | cons x rest =>
    simp only [duplicatedStack]
    split
    · assumption
    · exact h

/-- An opcode keeps the depth within the capacity (R17). -/
theorem opcodeEffect_depth {cap : Nat} (i : Instr) {r : Run} (h : r.sp ≤ cap) : (opcodeEffect cap i r).sp ≤ cap := by
  have hb : ∀ f, (binaryStack f r.stack).length ≤ cap := fun f => (binaryStack_length_le f r.stack).trans h
  have hp : ∀ v : Word, (if r.stack.length < cap then v :: r.stack else r.stack).length ≤ cap := by
    intro v
    unfold Run.sp at h
    split
    · rw [List.length_cons]; omega
    · exact h
  unfold Run.sp at *
  cases i <;> simp only [opcodeEffect, Run.advance_stack, Run.push_stack, Run.binary_stack, Run.swap_stack,
    Run.duplicate_stack, Run.halt_stack] <;>
    first
      | exact hp _
      | exact hb _
      | exact (swappedStack_length r.stack).trans_le h
      | exact duplicatedStack_length_le h
      | exact h

end Sys2Proof.Machine
end

