-- ==== Sys2Proof/Laws/Step.lean ====
section
/-! SUPPORT. What a step can do, said once: the four ways in which it answers a next state, what `fillSample` leaves
unchanged, and what each event changes. -/

namespace Sys2Proof.Machine

/-! ## The step -/

theorem step_idle {s : State} (hr : s.run = none) (hp : s.pending = []) : step s = .next s := by
  simp only [step, hr, State.takeEvent, hp]

theorem step_event {s : State} {c : Context} {e : Event} {rest : List (Context × Event)} (hr : s.run = none)
    (hp : s.pending = (c, e) :: rest) : step s = ({ s with pending := rest } : State).issue c e := by
  simp only [step, hr, State.takeEvent, hp]

theorem step_stop {s : State} {r : Run} (hr : s.run = some r) (hs : r.atStop = true) :
    step s = .next { s with run := none, replies := .result r.result :: s.replies } := by
  simp only [step, hr, hs, if_true, State.finishRun]

theorem step_opcode {s : State} {r : Run} (hr : s.run = some r) (hs : r.atStop = false) {i : Instr}
    (hf : s.fetch r = some i) : step s = exec i s := by
  simp only [step, hr, hs, hf, Bool.false_eq_true, if_false]

theorem fetch_inside {s : State} {r : Run} (h : r.pc.toNat < maxProgramLen) :
    s.fetch r = some (decodeWith s.cfg.enc (s.prog.read r.pc.toNat)) := by
  simp only [State.fetch, h, if_true]

/-- An event issued in its own context after `reset` has its effect. -/
theorem issue_owner {s : State} {e : Event} (h : s.resetDone = true) : s.issue e.owner e = s.perform e := by
  simp [State.issue, h]

/-- If an event answers a next state, its duties were kept. -/
theorem issue_next {s s' : State} {c : Context} {e : Event} (h : s.issue c e = .next s') :
    (s.resetDone = true ∨ e = .reset) ∧ c = e.owner ∧ s.perform e = .next s' := by
  unfold State.issue at h
  split at h
  · cases h
  · rename_i h1
    split at h
    · rename_i h2
      refine ⟨?_, h2, h⟩
      cases hd : s.resetDone with
      | true => exact .inl rfl
      | false => exact .inr (by_contra fun he => h1 ⟨hd, he⟩)
    · cases h

/-- If a step answers a next state, then the machine was idle, or took an event whose duties were kept, or returned the result
of a stopped run, or executed the opcode it fetched. -/
theorem step_cases {s s' : State} (h : step s = .next s') :
    (s.run = none ∧ s.pending = [] ∧ s' = s) ∨
    (∃ e rest, s.run = none ∧ s.pending = (e.owner, e) :: rest ∧ (s.resetDone = true ∨ e = .reset) ∧
      ({ s with pending := rest } : State).perform e = .next s') ∨
    (∃ r, s.run = some r ∧ r.atStop = true ∧
      s' = { s with run := none, replies := .result r.result :: s.replies }) ∨
    (∃ r i, s.run = some r ∧ r.atStop = false ∧ r.pc.toNat < maxProgramLen ∧
      i = decodeWith s.cfg.enc (s.prog.read r.pc.toNat) ∧
      s' = { s with run := some (opcodeEffect s.cfg.stackCap i r) }) := by
  rcases Option.eq_none_or_eq_some s.run with hr | ⟨r, hr⟩
  · cases hp : s.pending with
    | nil =>
      rw [step_idle hr hp] at h
      exact .inl ⟨hr, rfl, by cases h; rfl⟩
    | cons p rest =>
      obtain ⟨c, e⟩ := p
      rw [step_event hr hp] at h
      obtain ⟨hd, rfl, hperf⟩ := issue_next h
      exact .inr (.inl ⟨e, rest, hr, rfl, hd, hperf⟩)
  · cases hs : r.atStop with
    | true =>
      rw [step_stop hr hs] at h
      exact .inr (.inr (.inl ⟨r, hr, hs, by cases h; rfl⟩))
    | false =>
      by_cases hf : r.pc.toNat < maxProgramLen
      · rw [step_opcode hr hs (fetch_inside hf), exec_some hr] at h
        exact .inr (.inr (.inr ⟨r, _, hr, hs, hf, rfl, by cases h; rfl⟩))
      · simp [step, hr, hs, State.fetch, hf] at h

/-! ## The ClipPlayer -/

/-- What a slot holds is read from the clip table alone. -/
theorem slot_congr {s t : State} (h : s.clipTab = t.clipTab) (k : BitVec 8) : s.slot k = t.slot k := by
  unfold State.slot; rw [h]

/-- An index of 32 or more selects no record (R123). -/
theorem slot_outside (s : State) {k : BitVec 8} (h : nClips ≤ k.toNat) : s.slot k = none := by
  unfold State.slot
  rw [Vector.getElem?_eq_none h]

/-- `fillSample`'s loop changes the registers of the ClipPlayer and the output buffer, and nothing else (R156). -/
theorem fillLoop_frame {k : BitVec 8} {n j : Nat} {done done' : Bool} {s s' : State}
    (h : fillLoop k n j done s = .ok (done', s')) : s' = { s with clip := s'.clip, outBuf := s'.outBuf } := by
  induction n generalizing j done s with
  | zero => cases done <;> (simp only [fillLoop, Except.ok.injEq, Prod.mk.injEq] at h; rw [← h.2])
  | succ n ih =>
    cases done with
    | true =>
      simp only [fillLoop] at h
      rw [ih h]
      rfl
    | false =>
      simp only [fillLoop] at h
      split at h
      · cases h
      · rw [ih h]
        rfl

/-- `fillSample` answers a next state only through its loop, and then changes the ClipPlayer, the output buffer, the mark
that clips are fixed, and the replies. -/
theorem fillSample_next {s s' : State} {k : BitVec 8} (h : s.fillSample k = .next s') :
    ∃ done t, fillLoop k s.cfg.bufferSize 0 false s = .ok (done, t) ∧
      s' = { s with clip := t.clip, outBuf := t.outBuf, clipsFixed := true, replies := .filled done :: s.replies } := by
  unfold State.fillSample at h
  split at h
  · cases h
  · split at h
    · cases h
    · rename_i done t heq
      refine ⟨done, t, heq, ?_⟩
      cases h
      rw [fillLoop_frame heq]

/-! ## The events -/

theorem startRun_next {s s' : State} {plen : BitVec 11} {t u : BitVec 64} (h : s.startRun plen t u = .next s') :
    plen.toNat ≤ maxProgramLen ∧ s' = { s with run := some (vmReset plen t u) } := by
  unfold State.startRun at h
  split at h
  · rename_i hp
    exact ⟨hp, by cases h; rfl⟩
  · cases h

theorem writeSlot_next {s s' : State} {slot : BitVec 5} {base : Nat} {len : BitVec 32}
    (h : s.writeSlot slot base len = .next s') :
    s.clipsFixed = false ∧ (base < 2 ^ s.cfg.clipAddrW ∧ (len.toNat = 0 ∨ base + len.toNat ≤ s.cfg.clipMemSize)) ∧
      s' = { s with clipTab := s.clipTab.set slot.toNat (some { base := base, len := len }) slot.isLt } := by
  unfold State.writeSlot at h
  split at h
  · cases h
  · rename_i hf
    split at h
    · rename_i hb
      exact ⟨by simpa using hf, hb, by cases h; rfl⟩
    · cases h

theorem writeClip_next {s s' : State} {addr : Nat} {v : Byte} (h : s.writeClip addr v = .next s') :
    s.clipsFixed = false ∧ addr < s.cfg.clipMemSize ∧ s' = { s with clipMem := s.clipMem.write addr v } := by
  unfold State.writeClip at h
  split at h
  · cases h
  · rename_i hf
    split at h
    · rename_i hb
      exact ⟨by simpa using hf, hb, by cases h; rfl⟩
    · cases h

theorem powerOnReset_next {s s' : State} (h : s.powerOnReset = .next s') :
    s.resetDone = false ∧
      s' = { s with run := none, clip := .atReset, deb := .atReset, dec := .atReset,
                    resetDone := true, clipsFixed := false, replies := [] } := by
  unfold State.powerOnReset at h
  split at h
  · cases h
  · rename_i hf
    exact ⟨by simpa using hf, by cases h; rfl⟩

/-! ## The quadrature decoder -/

theorem poll_step (d : Decoder) (a b : Bool) : (d.poll a b).1 = (d.shift a b).stepOf := rfl

theorem poll_registers (d : Decoder) (a b : Bool) :
    (d.poll a b).2 = (d.shift a b).settle.accumulate (d.shift a b).stepOf := rfl

@[simp] theorem poll_hA32 (d : Decoder) (a b : Bool) : (d.poll a b).2.hA32 = shiftIn32 d.hA32 a := by
  simp [poll_registers]
@[simp] theorem poll_hB32 (d : Decoder) (a b : Bool) : (d.poll a b).2.hB32 = shiftIn32 d.hB32 b := by
  simp [poll_registers]
@[simp] theorem poll_hA8 (d : Decoder) (a b : Bool) : (d.poll a b).2.hA8 = shiftIn8 d.hA8 a := by
  simp [poll_registers]
@[simp] theorem poll_hB8 (d : Decoder) (a b : Bool) : (d.poll a b).2.hB8 = shiftIn8 d.hB8 b := by
  simp [poll_registers]
@[simp] theorem poll_delta (d : Decoder) (a b : Bool) : (d.poll a b).2.delta = d.delta + (d.poll a b).1.value := by
  simp [poll_registers, poll_step]

/-- The newest sample stands in bit 0 and every other bit moves up by one (R137). -/
theorem shiftIn32_getLsbD (h : BitVec 32) (sample : Bool) (i : Nat) :
    (shiftIn32 h sample).getLsbD i = if i = 0 then sample else decide (i < 32) && h.getLsbD (i - 1) := by
  unfold shiftIn32
  rw [BitVec.getLsbD_append]
  rcases Nat.eq_zero_or_pos i with rfl | hi
  · simp
  · rw [if_neg (by omega), if_neg (by omega), BitVec.getLsbD_extractLsb']
    simp only [Nat.zero_add]
    congr 1
    simp only [decide_eq_decide]
    omega

theorem shiftIn8_getLsbD (h : BitVec 8) (sample : Bool) (i : Nat) :
    (shiftIn8 h sample).getLsbD i = if i = 0 then sample else decide (i < 8) && h.getLsbD (i - 1) := by
  unfold shiftIn8
  rw [BitVec.getLsbD_append]
  rcases Nat.eq_zero_or_pos i with rfl | hi
  · simp
  · rw [if_neg (by omega), if_neg (by omega), BitVec.getLsbD_extractLsb']
    simp only [Nat.zero_add]
    congr 1
    simp only [decide_eq_decide]
    omega

/-- The two stages keep agreeing when they take the same sample (R137). -/
theorem shiftIn8_agrees {h8 : BitVec 8} {h32 : BitVec 32} (h : h8 = h32.extractLsb' 0 8) (sample : Bool) :
    shiftIn8 h8 sample = (shiftIn32 h32 sample).extractLsb' 0 8 := by
  subst h
  apply BitVec.eq_of_getLsbD_eq
  intro i hi
  rw [shiftIn8_getLsbD, BitVec.getLsbD_extractLsb', BitVec.getLsbD_extractLsb', shiftIn32_getLsbD]
  simp only [Nat.zero_add, hi, decide_true, Bool.true_and]
  split
  · rfl
  · have h1 : i - 1 < 8 := by omega
    have h2 : i < 32 := by omega
    simp [h1, h2]

/-! ## The debouncer -/

/-- The update rule of a release counter on integers (R128). -/
theorem countPoll_toNat (cycles c : Byte) (pressed : Bool) :
    (countPoll cycles c pressed).toNat = if pressed then cycles.toNat else c.toNat - 1 := by
  unfold countPoll
  split
  · rfl
  · split
    · rename_i h
      simp [h]
    · rename_i h
      have hc : c.toNat ≠ 0 := fun h0 => h (BitVec.eq_of_toNat_eq h0)
      rw [BitVec.toNat_sub]
      have := c.isLt
      simp
      omega

end Sys2Proof.Machine
end

