-- ==== Sys2Proof/Laws/Devices.lean ====
section
/-! SUPPORT. The laws of the devices that several claims share: an awaited event, the clip table after a write, the loop of
`fillSample` under the invariant, the interpolation on integers, one counter after a poll, the acceptance of the decoder,
and the iteration of polls and of steps. -/

namespace Sys2Proof.Machine

/-! ## Steps -/

/-- The step of a machine that awaits an event is that event's effect (R13). -/
theorem step_awaits {s : State} {e : Event} {rest : List (Context × Event)} (h : s.awaits e rest) :
    step s = ({ s with pending := rest } : State).perform e := by
  obtain ⟨hr, hd, hp⟩ := h
  rw [step_event hr hp]
  exact issue_owner (s := { s with pending := rest }) hd

theorem runSteps_succ {n : Nat} {s s' : State} (h : step s = .next s') : runSteps (n + 1) s = runSteps n s' := by
  simp [runSteps, h]

theorem atStop_iff (r : Run) : r.atStop = true ↔ r.stopped = true ∨ r.pc = r.plen := by
  simp [Run.atStop]

theorem vmReset_sp (plen : BitVec 11) (t u : BitVec 64) : (vmReset plen t u).sp = 0 := rfl

/-! ## The ClipPlayer -/

/-- A write of one record is seen at its slot and nowhere else (R47). -/
theorem slot_set {s : State} {slot : BitVec 5} {c : ClipSlot} (k : BitVec 8) :
    ({ s with clipTab := s.clipTab.set slot.toNat (some c) slot.isLt } : State).slot k =
      if k.toNat = slot.toNat then some c else s.slot k := by
  unfold State.slot
  simp only [Vector.getElem?_set]
  have := slot.isLt
  by_cases h : slot.toNat = k.toNat
  · simp [h]
  · simp [h, Ne.symm h]

theorem clipRead_ok {s : State} (c : ClipSlot) (i : Nat) (h : c.base + i < s.cfg.clipMemSize) :
    s.clipRead c i = .ok (s.clipMem.read (c.base + i)) := by
  simp [State.clipRead, h]

/-- With readable slots no `clipStep` faults (R66). -/
theorem clipStep_ok {s : State} (h : s.slotsReadable) (k : BitVec 8) : ∃ x, s.clipStep k = .ok x := by
  unfold State.clipStep
  cases hs : s.slot k with
  | none => exact ⟨_, rfl⟩
  | some c =>
    simp only
    split
    · exact ⟨_, rfl⟩
    · rename_i hc
      simp [clipComplete] at hc
      have := h k c hs
      rw [clipRead_ok c _ (by omega), clipRead_ok c _ (by omega)]
      exact ⟨_, rfl⟩

/-- With readable slots no `fillSample` faults (R66, R148). -/
theorem fillLoop_ok {s : State} (h : s.slotsReadable) (k : BitVec 8) (n j : Nat) (done : Bool) :
    ∃ x, fillLoop k n j done s = .ok x := by
  induction n generalizing s j done with
  | zero => cases done <;> exact ⟨_, rfl⟩
  | succ n ih =>
    cases done with
    | true =>
      simp only [fillLoop]
      exact ih (s := s.outWrite j silence) h _ _
    | false =>
      obtain ⟨⟨b, d, p⟩, hx⟩ := clipStep_ok h k
      simp only [fillLoop, hx]
      exact ih (s := ({ s with clip := p } : State).outWrite j b) h _ _

/-- The loop of `fillSample` keeps the output buffer canonical and inside its space (R49). -/
theorem fillLoop_outBuf {k : BitVec 8} {n j size : Nat} {done done' : Bool} {s s' : State}
    (h : fillLoop k n j done s = .ok (done', s')) (hw : s.outBuf.wf = true ∧ s.outBuf.fits size = true)
    (hj : j + n ≤ size) : s'.outBuf.wf = true ∧ s'.outBuf.fits size = true := by
  induction n generalizing j done s with
  | zero =>
    cases done <;> (simp only [fillLoop, Except.ok.injEq, Prod.mk.injEq] at h; rw [← h.2]; exact hw)
  | succ n ih =>
    cases done with
    | true =>
      simp only [fillLoop] at h
      exact ih h ⟨Memory.wf_write hw.1 _ _, Memory.fits_write hw.2 (by omega) _⟩ (by omega)
    | false =>
      simp only [fillLoop] at h
      split at h
      · cases h
      · exact ih h ⟨Memory.wf_write hw.1 _ _, Memory.fits_write hw.2 (by omega) _⟩ (by omega)

/-- The interpolated byte is the exact weighted sum rounded down: nothing is lost in the narrowing (R119). -/
theorem interpolate_toNat (s0 s1 : Byte) (frac : Fin 5) :
    (interpolate s0 s1 frac).toNat = (s0.toNat * (5 - frac.val) + s1.toNat * frac.val) / 5 := by
  have h0 := s0.isLt
  have h1 := s1.isLt
  simp only [interpolate, scale, BitVec.toNat_ofNat]
  apply Nat.mod_eq_of_lt
  fin_cases frac <;> simp <;> omega

/-! ## The debouncer -/

theorem poll_cnt (d : Debouncer) (raw : BitVec 7) (i : Fin 7) :
    (d.poll raw).cnt[i] = countPoll d.cycles d.cnt[i] (raw.getLsbD i) := by
  simp [Debouncer.poll]

/-! ## The quadrature decoder -/

/-- A poll is accepted exactly when each line's two histories are all zeros, or both all ones (R138). -/
theorem accepts_iff (d : Decoder) : d.accepts = true ↔
    (d.hA32 = 0#32 ∧ d.hA8 = 0#8 ∨ d.hA32 = 0xFFFFFFFF#32 ∧ d.hA8 = 0xFF#8) ∧
      (d.hB32 = 0#32 ∧ d.hB8 = 0#8 ∨ d.hB32 = 0xFFFFFFFF#32 ∧ d.hB8 = 0xFF#8) := by
  unfold Decoder.accepts settled32 settled8
  constructor
  · intro h
    simp only [Bool.and_eq_true, Bool.or_eq_true, decide_eq_true_eq, beq_iff_eq] at h
    obtain ⟨⟨⟨⟨⟨h1, h2⟩, h3⟩, h4⟩, h5⟩, h6⟩ := h
    rcases h1 with h1 | h1 <;> rcases h2 with h2 | h2 <;> rcases h3 with h3 | h3 <;> rcases h4 with h4 | h4 <;>
      simp [h1, h2, h3, h4] at h5 h6 ⊢
  · rintro ⟨⟨h1, h2⟩ | ⟨h1, h2⟩, ⟨h3, h4⟩ | ⟨h3, h4⟩⟩ <;> simp [h1, h2, h3, h4]

theorem poll_accepts (d : Decoder) (a b : Bool) : (d.poll a b).2.accepts = (d.shift a b).accepts := by
  simp [Decoder.accepts, poll_registers]

theorem pollAll_append (d : Decoder) (xs ys : List (Bool × Bool)) :
    d.pollAll (xs ++ ys) =
      ((d.pollAll xs).1 ++ ((d.pollAll xs).2.pollAll ys).1, ((d.pollAll xs).2.pollAll ys).2) := by
  induction xs generalizing d with
  | nil => rfl
  | cons x xs ih =>
    obtain ⟨a, b⟩ := x
    simp [Decoder.pollAll, ih]

end Sys2Proof.Machine
end

