-- ==== Sys2Proof/Laws/PerInstr.lean ====
section
/-! SUPPORT. One law per constructor of `Instr`: a well-formed instruction encodes, under the map of R70, to a byte that its
own row of `spec/opcode_table.json` selects. -/

namespace Sys2Proof.Laws.MatchesRow

/-- The byte of a well-formed instruction meets the mask and pattern of its row (R70, R72). -/
def Statement (i : Instr) : Prop :=
  i.wfFor defaultEnc = true → ∃ b, encodeWith defaultEnc i = some b ∧ i.row.selects b = true

theorem lit (n : BitVec 4) : Statement (.lit n) := by
  intro _
  have h : ∀ n : BitVec 4, ((encodeWith defaultEnc (.lit n)).map (Instr.lit n).row.selects) = some true := by decide
  simpa using h n
theorem t : Statement .t := fun _ => ⟨0x10, by decide, by decide⟩
theorem u : Statement .u := fun _ => ⟨0x11, by decide, by decide⟩
theorem and : Statement .and := fun _ => ⟨0x12, by decide, by decide⟩
theorem or : Statement .or := fun _ => ⟨0x13, by decide, by decide⟩
theorem xor : Statement .xor := fun _ => ⟨0x14, by decide, by decide⟩
theorem add : Statement .add := fun _ => ⟨0x15, by decide, by decide⟩
theorem sub : Statement .sub := fun _ => ⟨0x16, by decide, by decide⟩
theorem mul : Statement .mul := fun _ => ⟨0x17, by decide, by decide⟩
theorem div : Statement .div := fun _ => ⟨0x18, by decide, by decide⟩
theorem mod : Statement .mod := fun _ => ⟨0x19, by decide, by decide⟩
theorem shl : Statement .shl := fun _ => ⟨0x1A, by decide, by decide⟩
theorem shr : Statement .shr := fun _ => ⟨0x1B, by decide, by decide⟩
theorem swp : Statement .swp := fun _ => ⟨0x1C, by decide, by decide⟩
theorem dup : Statement .dup := fun _ => ⟨0x1D, by decide, by decide⟩
theorem endOp : Statement .endOp := fun _ => ⟨0x1E, by decide, by decide⟩

theorem undef1F (x : BitVec 5) : Statement (.undef1F x) := by
  have h : ∀ x : BitVec 5, (Instr.undef1F x).wfFor defaultEnc = true → (Instr.undef1F x).row.selects (0#3 ++ x) = true := by
    decide
  exact fun hw => ⟨0#3 ++ x, rfl, h x hw⟩
theorem undef20 (x : BitVec 5) : Statement (.undef20 x) := by
  have h : ∀ x : BitVec 5, (Instr.undef20 x).row.selects (1#3 ++ x) = true := by decide
  exact fun _ => ⟨1#3 ++ x, rfl, h x⟩
theorem undef40 (x : BitVec 6) : Statement (.undef40 x) := by
  have h : ∀ x : BitVec 6, (Instr.undef40 x).row.selects (1#2 ++ x) = true := by decide
  exact fun _ => ⟨1#2 ++ x, rfl, h x⟩
theorem undef80 (x : BitVec 7) : Statement (.undef80 x) := by
  have h : ∀ x : BitVec 7, (Instr.undef80 x).row.selects (1#1 ++ x) = true := by decide
  exact fun _ => ⟨1#1 ++ x, rfl, h x⟩

end Sys2Proof.Laws.MatchesRow
end

