-- ==== Sys2Proof/Tests/Slice0.lean ====
section
/-! SUPPORT. The smoke tests of the well-formedness checks, the words of every constructor written out from `30_encoding.md`,
at most two small tests for each instruction and event with the results of `95_test_vectors.md` and of the rules' own
examples, and a witness for the hypotheses of every statement. -/

namespace Sys2Proof.Machine.Tests

/-! ## Helpers -/

/-- The next state, if that is the outcome. -/
def nextOf : Host.Outcome State Fault Refusal → Option State
  | .next s => some s
  | .fault _ | .refused _ => none

/-- The refusal, if that is the outcome. -/
def refusalOf : Host.Outcome State Fault Refusal → Option Refusal
  | .refused r => some r
  | .next _ | .fault _ => none

/-- A run at an offset with a stack (top first), the time inputs of R92 and R93's examples and a bound. -/
def runAt (pc plen : BitVec 11) (stack : List Word) : Run :=
  { pc := pc, stack := stack, t32 := 128, u32 := 70000, plen := plen, stopped := false }

/-- The parameters of the vectors of the ClipPlayer: a buffer of 16 bytes and a capacity of 4. -/
def smallConfig : Config := { defaultConfig with stackCap := 4, bufferSize := 16 }

/-- A machine with clip A of `95_test_vectors.md` in slot 3 and a program `LIT 5, LIT 7, END`. -/
def demo : State :=
  { State.reset with
    cfg := smallConfig
    prog := { cells := [(0, 0x05), (1, 0x07), (2, 0x1E), (1023, 0x1F)] }
    clipTab := State.reset.clipTab.set 3 (some { base := 0x100, len := 4 })
    clipMem := { cells := [(0x100, 0x80), (0x101, 0x8A), (0x102, 0x76), (0x103, 0x80)] } }

/-- The machine inside a run. -/
def running (pc plen : BitVec 11) (stack : List Word) : State := { demo with run := some (runAt pc plen stack) }

/-- The machine between runs, awaiting an event of its own context. -/
def awaiting (e : Event) : State := { demo with pending := [(e.owner, e)] }

/-- The stack an instruction leaves on a stack (top first). -/
def stackAfter (i : Instr) (stack : List Word) : Option (List Word) :=
  ((nextOf (exec i (running 0 1024 stack))).bind (·.run)).map (·.stack)

/-- The newest reply after one step. -/
def replyAfter (s : State) : Option Reply := (nextOf (step s)).bind (·.replies.head?)

/-! ## Well-formedness: each check refuses an ill-formed term -/

/-- A map in which `LIT 0` and `END` change places and `0x1F` stands for `DUP`: `0x1D` is then an undefined byte. -/
def otherEnc : List Byte :=
  [0x1E, 0x01, 0x02, 0x03, 0x04, 0x05, 0x06, 0x07, 0x08, 0x09, 0x0A, 0x0B, 0x0C, 0x0D, 0x0E, 0x0F,
   0x10, 0x11, 0x12, 0x13, 0x14, 0x15, 0x16, 0x17, 0x18, 0x19, 0x1A, 0x1B, 0x1C, 0x1F, 0x00]

/-- A map that uses a byte of each of the other three rows of undefined bytes. -/
def highEnc : List Byte :=
  [0x20, 0x01, 0x02, 0x03, 0x04, 0x05, 0x06, 0x07, 0x08, 0x09, 0x0A, 0x0B, 0x0C, 0x0D, 0x0E, 0x0F,
   0x40, 0x80, 0x12, 0x13, 0x14, 0x15, 0x16, 0x17, 0x18, 0x19, 0x1A, 0x1B, 0x1C, 0x1D, 0x1E]

theorem test_default_map_well_formed : encWf defaultEnc = true := by decide
theorem test_other_map_well_formed : encWf otherEnc = true := by decide
theorem test_high_map_well_formed : encWf highEnc = true := by decide
theorem test_short_map_refused : encWf (defaultEnc.take 30) = false := by decide
theorem test_repeating_map_refused : encWf (0x01 :: defaultEnc.tail) = false := by decide
theorem test_default_config_well_formed : defaultConfig.wf = true := by decide
theorem test_no_capacity_refused : ({ defaultConfig with stackCap := 0 } : Config).wf = false := by decide
theorem test_bad_map_config_refused : ({ defaultConfig with enc := [] } : Config).wf = false := by decide
theorem test_no_buffer_refused : ({ defaultConfig with bufferSize := 0 } : Config).wf = false := by decide
theorem test_large_clip_memory_refused : ({ defaultConfig with clipAddrW := 31 } : Config).wf = false := by decide
theorem test_low_lever_bit_refused : ({ defaultConfig with whammyBit := 5 } : Config).wf = false := by decide
theorem test_high_lever_bit_refused : ({ defaultConfig with whammyBit := 8 } : Config).wf = false := by decide
theorem test_opcode_well_formed : (Instr.lit 15).wfFor defaultEnc = true := by decide
theorem test_undef1F_well_formed : (Instr.undef1F 31).wfFor defaultEnc = true := by decide
theorem test_undef1F_in_map_refused : (Instr.undef1F 31).wfFor otherEnc = false := by decide
theorem test_undef20_in_map_refused : (Instr.undef20 0).wfFor highEnc = false := by decide
theorem test_undef40_in_map_refused : (Instr.undef40 0).wfFor highEnc = false := by decide
theorem test_undef80_in_map_refused : (Instr.undef80 0).wfFor highEnc = false := by decide

/-! ## Decoding: each word written out from R68 to R72 -/

theorem test_decode_lit : decodeTableWord 8 0b0000_1010 = some (.lit 10) := by decide
theorem test_decode_t : decodeTableWord 8 0b0001_0000 = some (.t) := by decide
theorem test_decode_u : decodeTableWord 8 0b0001_0001 = some (.u) := by decide
theorem test_decode_and : decodeTableWord 8 0b0001_0010 = some (.and) := by decide
theorem test_decode_or : decodeTableWord 8 0b0001_0011 = some (.or) := by decide
theorem test_decode_xor : decodeTableWord 8 0b0001_0100 = some (.xor) := by decide
theorem test_decode_add : decodeTableWord 8 0b0001_0101 = some (.add) := by decide
theorem test_decode_sub : decodeTableWord 8 0b0001_0110 = some (.sub) := by decide
theorem test_decode_mul : decodeTableWord 8 0b0001_0111 = some (.mul) := by decide
theorem test_decode_div : decodeTableWord 8 0b0001_1000 = some (.div) := by decide
theorem test_decode_mod : decodeTableWord 8 0b0001_1001 = some (.mod) := by decide
theorem test_decode_shl : decodeTableWord 8 0b0001_1010 = some (.shl) := by decide
theorem test_decode_shr : decodeTableWord 8 0b0001_1011 = some (.shr) := by decide
theorem test_decode_swp : decodeTableWord 8 0b0001_1100 = some (.swp) := by decide
theorem test_decode_dup : decodeTableWord 8 0b0001_1101 = some (.dup) := by decide
theorem test_decode_end : decodeTableWord 8 0b0001_1110 = some (.endOp) := by decide
theorem test_decode_undef1F : decodeTableWord 8 0b0001_1111 = some (.undef1F 0b1_1111) := by decide
theorem test_decode_undef20 : decodeTableWord 8 0b0010_0101 = some (.undef20 0b0_0101) := by decide
theorem test_decode_undef40 : decodeTableWord 8 0b0110_0001 = some (.undef40 0b10_0001) := by decide
theorem test_decode_undef80 : decodeTableWord 8 0b1000_0110 = some (.undef80 0b000_0110) := by decide
theorem test_decode_no_byte : (decodeBytes defaultEnc []).toOption = none := by decide
theorem test_decode_leaves_the_rest : (decodeBytes defaultEnc [0x05, 0xFF]).toOption = some (.lit 5, [0xFF]) := by decide
theorem test_encode_literal : encode (.lit 10) = [0x0A] := by decide
theorem test_other_map_swaps : decodeWith otherEnc 0x00 = .endOp ∧ decodeWith otherEnc 0x1D = .undef1F 29 := by decide

/-! ## Instructions (stacks top first) -/

/-- V5 and the example of R92. -/
theorem test_lit : stackAfter (.lit 10) [7] = some [0x0000000A, 7] := by decide
/-- R90: at capacity the push is dropped. -/
theorem test_lit_full : stackAfter (.lit 5) [4, 3, 2, 1] = some [4, 3, 2, 1] := by decide
/-- The example of R93. -/
theorem test_t : stackAfter .t [] = some [0x00000080] := by decide
/-- The example of R94. -/
theorem test_u : stackAfter .u [1] = some [0x00011170, 1] := by decide

/-- V12a. -/
theorem test_and : stackAfter .and [0xFF00FF00, 0xF0F0F0F0] = some [0xF000F000] := by decide
/-- V13a. -/
theorem test_or : stackAfter .or [0xFF00FF00, 0xF0F0F0F0] = some [0xFFF0FFF0] := by decide
/-- V14a. -/
theorem test_xor : stackAfter .xor [0xFF00FF00, 0xF0F0F0F0] = some [0x0FF00FF0] := by decide
/-- V15a. -/
theorem test_add_wraps : stackAfter .add [2, 0xFFFFFFFF] = some [1] := by decide
/-- V16a. -/
theorem test_sub_borrows : stackAfter .sub [5, 3] = some [0xFFFFFFFE] := by decide
/-- V16b. -/
theorem test_sub : stackAfter .sub [3, 5] = some [2] := by decide
/-- V17a. -/
theorem test_mul_low_half : stackAfter .mul [0xFFFFFFFF, 0xFFFFFFFF] = some [1] := by decide
/-- V17c. -/
theorem test_mul : stackAfter .mul [5, 0xFFFFFFFF] = some [0xFFFFFFFB] := by decide
/-- V18d. -/
theorem test_div_unsigned : stackAfter .div [2, 0xFFFFFFFF] = some [0x7FFFFFFF] := by decide
/-- V18b. -/
theorem test_div_by_zero : stackAfter .div [0, 100] = some [0] := by decide
/-- V19e. -/
theorem test_mod : stackAfter .mod [0xFFFFFFFF, 0x80000000] = some [0x80000000] := by decide
/-- V19b. -/
theorem test_mod_by_zero : stackAfter .mod [0, 100] = some [0] := by decide
/-- V26b. -/
theorem test_shl_31 : stackAfter .shl [31, 1] = some [0x80000000] := by decide
/-- V26e. -/
theorem test_shl_32 : stackAfter .shl [32, 1] = some [0] := by decide
/-- V27c. -/
theorem test_shr_logical : stackAfter .shr [4, 0xFFFFFFFF] = some [0x0FFFFFFF] := by decide
/-- V27f. -/
theorem test_shr_33 : stackAfter .shr [33, 0xFFFFFFFF] = some [0] := by decide
/-- V20 and V21: the pure no-op. -/
theorem test_add_underflow : stackAfter .add [] = some [] ∧ stackAfter .add [5] = some [5] := by decide
/-- The example of R110. -/
theorem test_swp : stackAfter .swp [3, 2, 1] = some [2, 3, 1] := by decide
/-- V22. -/
theorem test_swp_one : stackAfter .swp [7] = some [7] := by decide
/-- The example of R111. -/
theorem test_dup : stackAfter .dup [9, 4] = some [9, 9, 4] := by decide
/-- V23. -/
theorem test_dup_empty : stackAfter .dup [] = some [] := by decide
/-- R112: `pc` and the entries stay, the run is stopped. -/
theorem test_end : ((nextOf (exec .endOp (running 1 3 [7]))).bind (·.run)) = some { runAt 1 3 [7] with stopped := true } := by
  decide
/-- R113: `pc` moves past the byte. -/
theorem test_undefined_skips : ((nextOf (exec (.undef80 0x7F) (running 1 3 [7]))).bind (·.run)) = some (runAt 2 3 [7]) := by
  decide
theorem test_undefined_others_skip :
    stackAfter (.undef1F 31) [3] = some [3] ∧ stackAfter (.undef20 0) [3] = some [3] ∧
      stackAfter (.undef40 0) [3] = some [3] := by decide

/-! ## Steps -/

/-- The step fetches the byte at `pc` (R84): offset 1 of the program holds `LIT 7`. -/
theorem test_step_fetches : ((nextOf (step (running 1 3 [5]))).bind (·.run)) = some (runAt 2 3 [7, 5]) := by decide
/-- V31b: the bound stands before the second byte, and the result is the top. -/
theorem test_bound_stops : replyAfter (running 1 1 [5]) = some (.result 0x05) := by decide
/-- V7 and R80: the time arguments are latched by their low 32 bits. -/
theorem test_evaluate_latches :
    ((nextOf (step (awaiting (.evaluate 3 0x123456789ABCDEF0 0xFFFFFFFF00000001)))).bind (·.run)) =
      some { pc := 0, stack := [], t32 := 0x9ABCDEF0, u32 := 1, plen := 3, stopped := false } := by decide
/-- An instruction placed by `withFetchWord` is the one the next step runs, as the first one after reset. -/
theorem test_placed_word_runs :
    ((nextOf (step (State.reset.withFetchWord 8 0b0000_1010))).bind (·.run)).map (·.stack) = some [10] := by decide
theorem test_placed_end_stops :
    ((nextOf (step (State.reset.withFetchWord 8 0b0001_1110))).bind (·.run)).map (·.stopped) = some true := by decide

/-! ## Events -/

/-- V50: the bytes of the buffer and the registers after it. -/
theorem test_fill_sample : ((nextOf (step (awaiting (.fillSample 3)))).map fun s =>
    ((List.range 16).map s.outBuf.read, s.clip)) =
    some ([0x80, 0x82, 0x84, 0x86, 0x88, 0x8A, 0x86, 0x82, 0x7E, 0x7A, 0x80, 0x80, 0x80, 0x80, 0x80, 0x80],
      { pos := 0, frac := 0, last := 0x80 }) := by decide
/-- V55: an index of 32 completes at once. -/
theorem test_fill_sample_outside : replyAfter (awaiting (.fillSample 32)) = some (.filled true) := by decide
/-- V56: a falling interval rounds down. -/
theorem test_interpolation_falls : (List.finRange 5).map (interpolate 10 7) = [10, 9, 8, 8, 7] := by decide
/-- V46: strum, fret 2 and lever. -/
theorem test_button_poll :
    (({ State.reset.deb with cycles := 10 } : Debouncer).poll 0b100_0101).cnt = #v[10, 0, 10, 0, 0, 0, 10] := by decide
/-- V46: the mask of those counters. -/
theorem test_button_mask : buttonMask 6 #v[10, 0, 10, 0, 0, 0, 10] = 0x45 := by decide
/-- R131: the cycles are written and no counter is. -/
theorem test_set_debounce : (nextOf (step (awaiting (.setDebounce 10)))).map (·.deb) =
    some { cycles := 10, cnt := Vector.replicate 7 0 } := by decide

/-- A decoder one sample before its 32nd high sample of A, with B high (V60 before poll 64). -/
def beforeRise : Decoder :=
  { hA32 := 0x7FFFFFFF, hB32 := 0xFFFFFFFF, hA8 := 0xFF, hB8 := 0xFF, sA := false, sB := true, delta := 0 }

/-- V60: `+1` at poll 64. -/
theorem test_rise_counts_up : (beforeRise.poll true true).1 = .plus ∧ (beforeRise.poll true true).2.delta = 1 := by decide
/-- V60: `-1` with B low. -/
theorem test_rise_counts_down :
    (({ beforeRise with hB32 := 0, hB8 := 0 } : Decoder).poll true false).1 = .minus := by decide
/-- V68: `delta` wraps. -/
theorem test_delta_wraps :
    (({ beforeRise with delta := 0x7FFFFFFF } : Decoder).poll true true).2.delta = 0x80000000 := by decide
/-- R142: the read returns the value and leaves zero. -/
theorem test_read_delta : ({ beforeRise with delta := 3 } : Decoder).readClear =
    (3, { beforeRise with delta := 0 }) := by decide
/-- R43: the registers after reset. -/
theorem test_reset_registers : State.reset.deb.cycles = 100 ∧ State.reset.clip.last = 0x80 ∧ State.reset.dec.delta = 0 := by
  decide
/-- Writing what an unlisted address reads as removes the entry. -/
theorem test_memory_canonical : (({ cells := [(3, 0x11), (5, 0x22)] } : Memory).write 3 0).cells = [(5, 0x22)] := by decide

/-! ## Witnesses: a concrete state and operands for the hypotheses of every statement -/

theorem reset_slot (k : BitVec 8) : State.reset.slot k = none := by
  unfold State.slot
  simp only [State.reset]
  by_cases hk : k.toNat < nClips
  · simp [hk]
  · rw [Vector.getElem?_eq_none (Nat.not_lt.1 hk)]

/-- The record of clip A. -/
def clipA : ClipSlot := { base := 0x100, len := 4 }

theorem demo_slot (k : BitVec 8) : demo.slot k = if k.toNat = 3 then some clipA else none := by
  have h := slot_set (s := State.reset) (slot := 3) (c := clipA) k
  rw [reset_slot] at h
  exact h

theorem demo_readable : demo.slotsReadable := by
  intro k c h
  rw [demo_slot] at h
  split at h
  · cases h; decide
  · cases h

/-- The demonstration machine meets the invariant between runs. -/
theorem demo_inv : demo.Inv where
  cfgWf := by decide
  progWf := by decide
  clipMemWf := by decide
  outBufWf := by decide
  slotsReadable := demo_readable
  runBounded := fun _ h => by cases h
  historiesAgree := by decide

theorem awaiting_inv (e : Event) : (awaiting e).Inv :=
  ⟨demo_inv.1, demo_inv.2, demo_inv.3, demo_inv.4, demo_readable, fun _ h => (by cases h), demo_inv.7⟩

/-- The demonstration machine meets the invariant inside a run. -/
theorem running_inv {pc plen : BitVec 11} {stack : List Word}
    (h : pc.toNat ≤ plen.toNat ∧ plen.toNat ≤ maxProgramLen ∧ stack.length ≤ 4) : (running pc plen stack).Inv :=
  ⟨demo_inv.1, demo_inv.2, demo_inv.3, demo_inv.4, demo_readable, fun _ hr => (by cases hr; exact h), demo_inv.7⟩

theorem awaiting_awaits (e : Event) : (awaiting e).awaits e [] := ⟨rfl, rfl, rfl⟩

theorem witness_EveryByteSelectsExactlyItsRow :
    Row.mk 0xFF 0x10 ∈ tableRows ∧ (Row.mk 0xFF 0x10).selects 0x10 = true := by decide

theorem witness_DecodeInvertsEncode : encWf otherEnc = true ∧ (Instr.lit 15).wfFor otherEnc = true ∧
    (Instr.undef1F 29).wfFor otherEnc = true ∧ (Instr.undef80 127).wfFor otherEnc = true := by decide

theorem witness_EncodeInvertsDecode : encWf otherEnc = true ∧ encWf highEnc = true := by decide

/-- The first offset of a program of one byte, and the last offset of `PROG`. -/
theorem witness_StepRunsTheDecodedInstruction :
    ((running 0 1 []).run = some (runAt 0 1 []) ∧ (runAt 0 1 []).stopped = false ∧ (runAt 0 1 []).pc ≠ (runAt 0 1 []).plen ∧
      (runAt 0 1 []).pc.toNat < maxProgramLen) ∧
    ((running 1023 1024 []).run = some (runAt 1023 1024 []) ∧ (runAt 1023 1024 []).stopped = false ∧
      (runAt 1023 1024 []).pc ≠ (runAt 1023 1024 []).plen ∧ (runAt 1023 1024 []).pc.toNat < maxProgramLen) := by decide

theorem witness_EvaluateStartsWithVmReset :
    ((awaiting (.evaluate 0 1 2)).awaits (.evaluate 0 1 2) [] ∧ (0#11).toNat ≤ maxProgramLen) ∧
    ((awaiting (.evaluate 1024 1 2)).awaits (.evaluate 1024 1 2) [] ∧ (1024#11).toNat ≤ maxProgramLen) :=
  ⟨⟨awaiting_awaits _, by decide⟩, ⟨awaiting_awaits _, by decide⟩⟩

/-- A run stopped by `END` with a stack of one entry. -/
def stoppedRun : Run := { runAt 1 3 [0xDEADBEEF] with stopped := true }

theorem witness_StoppedRunReturnsLowByteOfTop :
    (({ demo with run := some stoppedRun } : State).run = some stoppedRun ∧ stoppedRun.stopped = true ∧
      stoppedRun.stack = [0xDEADBEEF]) ∧
    ((running 1024 1024 []).run = some (runAt 1024 1024 []) ∧ (runAt 1024 1024 []).pc = (runAt 1024 1024 []).plen ∧
      (runAt 1024 1024 []).stack = []) := by decide

/-- A step that stops, one that executes `END` and one that does not. -/
theorem witness_RunStopsExactlyAtEndOrBound :
    (∃ s', step (running 3 3 []) = .next s' ∧ s'.run = none) ∧
    (∃ s' r', step (running 2 3 []) = .next s' ∧ s'.run = some r' ∧ r'.stopped = true) ∧
    (∃ s' r', step (running 0 3 []) = .next s' ∧ s'.run = some r' ∧ r'.stopped = false) :=
  ⟨⟨_, rfl, rfl⟩, ⟨_, _, rfl, rfl, rfl⟩, ⟨_, _, rfl, rfl, rfl⟩⟩

theorem witness_RunEndsWithinItsBound :
    ((running 0 1024 []).Inv ∧ (running 0 1024 []).run = some (runAt 0 1024 [])) ∧
    ((running 3 3 [1, 2, 3, 4]).Inv ∧ (running 3 3 [1, 2, 3, 4]).run = some (runAt 3 3 [1, 2, 3, 4])) :=
  ⟨⟨running_inv (by decide), rfl⟩, ⟨running_inv (by decide), rfl⟩⟩

theorem witness_EvaluateRefinesItsFunction :
    (awaiting (.evaluate 1024 1 2)).Inv ∧ (awaiting (.evaluate 1024 1 2)).awaits (.evaluate 1024 1 2) [] ∧
      (1024#11).toNat ≤ maxProgramLen :=
  ⟨awaiting_inv _, awaiting_awaits _, by decide⟩

/-- The second machine differs from `awaiting` in a device register, the bytes after the `END` at offset 2 (the last of them
below the bound) and the high half of `t`. -/
def otherMachine : State :=
  { awaiting (.evaluate 4 0x100000001 2) with
    deb := { cycles := 7, cnt := Vector.replicate 7 5 }
    prog := { cells := [(0, 0x05), (1, 0x07), (2, 0x1E), (3, 0x44)] } }

theorem witness_EvaluateReadsNothingElse :
    (awaiting (.evaluate 4 1 2)).awaits (.evaluate 4 1 2) [] ∧
    otherMachine.awaits (.evaluate 4 0x100000001 2) [] ∧ (4#11).toNat ≤ maxProgramLen ∧
    (awaiting (.evaluate 4 1 2)).cfg.stackCap = otherMachine.cfg.stackCap ∧
    (awaiting (.evaluate 4 1 2)).cfg.enc = otherMachine.cfg.enc ∧
    (∀ a, a < (4#11).toNat →
      (∀ b, b < a → decodeWith (awaiting (.evaluate 4 1 2)).cfg.enc ((awaiting (.evaluate 4 1 2)).prog.read b) ≠ .endOp) →
      (awaiting (.evaluate 4 1 2)).prog.read a = otherMachine.prog.read a) ∧
    (1#64).toNat % 2 ^ 32 = (0x100000001#64).toNat % 2 ^ 32 ∧ (2#64).toNat % 2 ^ 32 = (2#64).toNat % 2 ^ 32 :=
  ⟨awaiting_awaits _, ⟨rfl, rfl, rfl⟩, by decide, rfl, rfl, by decide, by decide, rfl⟩

/-- Each pushing opcode, below the capacity and at it. -/
theorem witness_PushingOpcodesPushOrDrop :
    (running 0 3 [1, 2, 3]).run = some (runAt 0 3 [1, 2, 3]) ∧ (runAt 0 3 [1, 2, 3]).stack.length < demo.cfg.stackCap ∧
    (running 0 3 [1, 2, 3, 4]).run = some (runAt 0 3 [1, 2, 3, 4]) ∧
    ¬ (runAt 0 3 [1, 2, 3, 4]).stack.length < demo.cfg.stackCap ∧
    (∃ n : BitVec 4, Instr.lit 15 = .lit n ∧ (15 : Word) = BitVec.ofNat 32 n.toNat) ∧
    (Instr.t = .t ∧ (128 : Word) = (runAt 0 3 [1, 2, 3]).t32) ∧ (Instr.u = .u ∧ (70000 : Word) = (runAt 0 3 [1, 2, 3]).u32) :=
  ⟨rfl, by decide, rfl, by decide, ⟨15, rfl, rfl⟩, ⟨rfl, rfl⟩, ⟨rfl, rfl⟩⟩


theorem witness_BitwiseOperatorsCombineBits :
    (running 0 3 [0xFF00FF00, 0xF0F0F0F0, 9]).run = some (runAt 0 3 [0xFF00FF00, 0xF0F0F0F0, 9]) ∧
      (runAt 0 3 [0xFF00FF00, 0xF0F0F0F0, 9]).stack = 0xFF00FF00 :: 0xF0F0F0F0 :: [9] := by decide

theorem witness_ArithmeticWrapsModulo32Bits :
    (running 0 3 [2, 0xFFFFFFFF, 9]).run = some (runAt 0 3 [2, 0xFFFFFFFF, 9]) ∧
      (runAt 0 3 [2, 0xFFFFFFFF, 9]).stack = 2 :: 0xFFFFFFFF :: [9] := by decide

/-- A zero divisor and the least divisor above it. -/
theorem witness_DivisionIsUnsignedAndZeroByZero :
    ((running 0 3 [0, 100]).run = some (runAt 0 3 [0, 100]) ∧ (runAt 0 3 [0, 100]).stack = 0 :: 100 :: [] ∧
      (0 : Word).toNat = 0) ∧
    ((running 0 3 [1, 100]).run = some (runAt 0 3 [1, 100]) ∧ (runAt 0 3 [1, 100]).stack = 1 :: 100 :: [] ∧
      0 < (1 : Word).toNat) := by decide

/-- The largest amount in range and the least beyond it. -/
theorem witness_ShiftsUseTheWholeAmount :
    ((running 0 3 [31, 1]).run = some (runAt 0 3 [31, 1]) ∧ (runAt 0 3 [31, 1]).stack = 31 :: 1 :: []) ∧
    ((running 0 3 [32, 1]).run = some (runAt 0 3 [32, 1]) ∧ (runAt 0 3 [32, 1]).stack = 32 :: 1 :: []) := by decide

theorem witness_UnderflowOnlyAdvances :
    ((running 0 3 [5]).run = some (runAt 0 3 [5]) ∧
      Instr.sub ∈ [Instr.and, .or, .xor, .add, .sub, .mul, .div, .mod, .shl, .shr, .swp] ∧ (runAt 0 3 [5]).stack.length < 2) ∧
    ((running 0 3 []).run = some (runAt 0 3 []) ∧ Instr.dup = .dup ∧ (runAt 0 3 []).stack = []) := by decide

theorem witness_SwapExchangesTheTopTwo :
    ((running 0 3 [2, 1]).run = some (runAt 0 3 [2, 1]) ∧ (runAt 0 3 [2, 1]).stack = 2 :: 1 :: []) ∧
    ((running 0 3 [1]).run = some (runAt 0 3 [1]) ∧ (runAt 0 3 [1]).stack.length < 2) := by decide

theorem witness_DuplicatePushesTheTop :
    ((running 0 3 [3, 2, 1]).run = some (runAt 0 3 [3, 2, 1]) ∧ (runAt 0 3 [3, 2, 1]).stack = 3 :: [2, 1] ∧
      (runAt 0 3 [3, 2, 1]).stack.length < demo.cfg.stackCap) ∧
    ((running 0 3 [4, 3, 2, 1]).run = some (runAt 0 3 [4, 3, 2, 1]) ∧
      demo.cfg.stackCap ≤ (runAt 0 3 [4, 3, 2, 1]).stack.length) ∧
    ((running 0 3 []).run = some (runAt 0 3 []) ∧ (runAt 0 3 []).stack = []) := by decide

theorem witness_EndStopsTheRunInPlace :
    (∃ s₁, (running 2 3 [7]).run = some (runAt 2 3 [7]) ∧ exec .endOp (running 2 3 [7]) = .next s₁ ∧
      (runAt 2 3 [7]).stack = 7 :: []) ∧
    (∃ s₁, (running 2 3 []).run = some (runAt 2 3 []) ∧ exec .endOp (running 2 3 []) = .next s₁ ∧
      (runAt 2 3 []).stack = []) :=
  ⟨⟨_, rfl, rfl, rfl⟩, ⟨_, rfl, rfl, rfl⟩⟩

/-- Offset 1023 of the demonstration program holds an undefined byte. -/
theorem witness_UndefinedBytesAreSkipped :
    ((running 0 3 []).run = some (runAt 0 3 []) ∧
      Instr.undef40 63 ∈ [Instr.undef1F 31, .undef20 31, .undef40 63, .undef80 127]) ∧
    ((running 1023 1024 []).run = some (runAt 1023 1024 []) ∧ (runAt 1023 1024 []).stopped = false ∧
      (runAt 1023 1024 []).pc ≠ (runAt 1023 1024 []).plen ∧ (runAt 1023 1024 []).pc.toNat < maxProgramLen ∧
      (running 1023 1024 []).prog.read (runAt 1023 1024 []).pc.toNat ∉ (running 1023 1024 []).cfg.enc) ∧
    (∀ b ∈ [0x1F#8, 0x20#8, 0x80#8, 0xFF#8], b ∉ defaultConfig.enc) := by decide

theorem witness_OpcodesChangeOnlyTheRun :
    (∃ s', exec .add (running 0 3 [1, 2]) = .next s' ∧ Instr.add ≠ .endOp) ∧
    (∃ s', exec .endOp (running 0 3 [1, 2]) = .next s') :=
  ⟨⟨_, rfl, by decide⟩, ⟨_, rfl⟩⟩

theorem witness_OpcodesReachOnlyTheTopTwo :
    ∃ s' r', (running 0 3 [3, 2, 1]).run = some (runAt 0 3 [3, 2, 1]) ∧ exec .add (running 0 3 [3, 2, 1]) = .next s' ∧
      s'.run = some r' ∧ (runAt 0 3 [3, 2, 1]).sp ≤ demo.cfg.stackCap ∧ 0 + 2 < (runAt 0 3 [3, 2, 1]).sp :=
  ⟨_, _, rfl, rfl, rfl, by decide, by decide⟩

theorem witness_StepKeepsTheInvariant :
    (∃ s', (running 0 3 []).Inv ∧ step (running 0 3 []) = .next s') ∧
    (∃ s', (awaiting (.fillSample 3)).Inv ∧ step (awaiting (.fillSample 3)) = .next s') :=
  ⟨⟨_, running_inv (by decide), rfl⟩, ⟨_, awaiting_inv _, rfl⟩⟩

theorem witness_NothingFaultsUnderTheInvariant : (running 1023 1024 [1, 2, 3, 4]).Inv ∧ (running 1023 1024 [1, 2, 3, 4]).run ≠ none :=
  ⟨running_inv (by decide), nofun⟩

/-- A machine whose last two replies are steps, awaiting one more poll. -/
def afterSteps : State :=
  { awaiting (.encoderPoll true true) with
    dec := { beforeRise with delta := 0xFFFFFFFE }, replies := [.polled .minus, .filled true, .polled .minus, .delta 5] }

/-- A poll that emits a step, and a read that returns a sum of two. -/
theorem witness_DeltaHoldsExactlyTheUnreadSteps :
    (∃ s', afterSteps.dec.delta = unreadSteps afterSteps.replies ∧ step afterSteps = .next s' ∧ s'.dec.delta = 0xFFFFFFFF) ∧
    (∃ s', afterSteps.dec.delta = unreadSteps afterSteps.replies ∧
      step { afterSteps with pending := [(.producer, .readEncoderDelta)] } = .next s' ∧
      s'.replies = .delta 0xFFFFFFFE :: afterSteps.replies) :=
  ⟨⟨_, by decide, rfl, by decide⟩, ⟨_, by decide, rfl, rfl⟩⟩

theorem witness_RunInputsAreConstant :
    ∃ s' r', step (running 0 3 []) = .next s' ∧ (running 0 3 []).run = some (runAt 0 3 []) ∧ s'.run = some r' :=
  ⟨_, _, rfl, rfl, rfl⟩

theorem witness_EventsWaitForTheRun :
    ∃ s', ({ running 0 3 [] with pending := [(.producer, .readButtons)] } : State).run = some (runAt 0 3 []) ∧
      step { running 0 3 [] with pending := [(.producer, .readButtons)] } = .next s' ∧ s'.run ≠ none :=
  ⟨_, rfl, rfl, nofun⟩

theorem witness_IdleMachineHoldsItsState : demo.run = none ∧ demo.pending = [] := ⟨rfl, rfl⟩

theorem witness_OnlyTheHostWritesTheProgram :
    ∃ s', step (awaiting (.writeProg 1023 0x1E)) = .next s' ∧ s'.prog ≠ (awaiting (.writeProg 1023 0x1E)).prog :=
  ⟨_, rfl, by decide⟩

/-- The first and the last byte of `PROG`. -/
theorem witness_HostWriteSetsOneProgramByte :
    ((awaiting (.writeProg 0 0)).Inv ∧ (awaiting (.writeProg 0 0)).awaits (.writeProg 0 0) []) ∧
    ((awaiting (.writeProg 1023 0x1E)).Inv ∧ (awaiting (.writeProg 1023 0x1E)).awaits (.writeProg 1023 0x1E) []) :=
  ⟨⟨awaiting_inv _, awaiting_awaits _⟩, ⟨awaiting_inv _, awaiting_awaits _⟩⟩

theorem witness_ClipsAreReadOnlyOncePlayed :
    (∃ s', ({ awaiting (.fillSample 3) with clipsFixed := true } : State).resetDone = true ∧
      ({ awaiting (.fillSample 3) with clipsFixed := true } : State).clipsFixed = true ∧
      step { awaiting (.fillSample 3) with clipsFixed := true } = .next s') ∧
    (∃ s', (awaiting (.fillSample 3)).awaits (.fillSample 3) [] ∧ step (awaiting (.fillSample 3)) = .next s') :=
  ⟨⟨_, rfl, rfl, rfl⟩, ⟨_, awaiting_awaits _, rfl⟩⟩

theorem witness_ContextsOwnTheirState :
    (∃ s', (awaiting (.encoderPoll true true)).run = none ∧ (awaiting (.encoderPoll true true)).resetDone = true ∧
      (awaiting (.encoderPoll true true)).pending = (.foreground, .encoderPoll true true) :: [] ∧
      step (awaiting (.encoderPoll true true)) = .next s') ∧
    (∃ s', (awaiting (.setDebounce 10)).run = none ∧ (awaiting (.setDebounce 10)).resetDone = true ∧
      (awaiting (.setDebounce 10)).pending = (.producer, .setDebounce 10) :: [] ∧
      step (awaiting (.setDebounce 10)) = .next s' ∧ Event.setDebounce 10 ≠ .readEncoderDelta) :=
  ⟨⟨_, rfl, rfl, rfl, rfl⟩, ⟨_, rfl, rfl, rfl, rfl, by decide⟩⟩

/-- A step that writes the cycles, one that writes a counter, one that writes a settled level. -/
theorem witness_RegistersAreWrittenOnlyByTheirEvents :
    (∃ s', demo.resetDone = true ∧ step (awaiting (.setDebounce 10)) = .next s' ∧ s'.deb.cycles ≠ demo.deb.cycles) ∧
    (∃ s', demo.resetDone = true ∧ step (awaiting (.buttonPoll 1)) = .next s' ∧ s'.deb.cnt ≠ demo.deb.cnt) ∧
    (∃ s', afterSteps.resetDone = true ∧ step afterSteps = .next s' ∧ s'.dec.sA ≠ afterSteps.dec.sA) :=
  ⟨⟨_, rfl, rfl, by decide⟩, ⟨_, rfl, rfl, by decide⟩, ⟨_, rfl, rfl, by decide⟩⟩

/-- The machine before `reset` (R167), and one that gets a second. -/
theorem witness_ResetSetsEveryRegister :
    (({ awaiting .reset with resetDone := false } : State).run = none ∧
      ({ awaiting .reset with resetDone := false } : State).pending = (.boot, .reset) :: [] ∧
      ({ awaiting .reset with resetDone := false } : State).resetDone = false) ∧
    ((awaiting .reset).run = none ∧ (awaiting .reset).pending = (.boot, .reset) :: [] ∧
      (awaiting .reset).resetDone = true) := by decide

/-- Each duty, broken at its boundary. -/
theorem witness_BrokenDutiesAreRefused :
    refusalOf (step { awaiting .readButtons with resetDone := false }) = some .eventBeforeReset ∧
    refusalOf (step { demo with pending := [(.foreground, .readEncoderDelta)] }) = some .wrongContext ∧
    refusalOf (step (awaiting (.evaluate 1025 0 0))) = some .plenTooLarge ∧
    refusalOf (step { awaiting (.writeSlot 0 0 0) with clipsFixed := true }) = some .clipsAlreadyFixed ∧
    refusalOf (step { awaiting (.writeClip 0 0) with clipsFixed := true }) = some .clipsAlreadyFixed ∧
    refusalOf (step (awaiting (.writeSlot 0 0xFFFFFFFF 2))) = some .clipNotReadable ∧
    refusalOf (step (awaiting (.writeSlot 0 0x100000000 0))) = some .clipNotReadable ∧
    refusalOf (step (awaiting (.writeClip 0x100000000 7))) = some .clipNotReadable ∧
    refusalOf (step (awaiting (.fillSample 31))) = some .slotNotPopulated := by decide

/-- A memory that ends with clip A, below the highest address of its width. -/
def smallClips (e : Event) : State := { awaiting e with cfg := { smallConfig with clipMemSize := 0x104 } }

/-- R170: a slot that is not used is given length 0, and describes no byte at whatever base. -/
theorem test_empty_record_accepted :
    (nextOf (step (smallClips (.writeSlot 31 0xFFFFFFFF 0)))).map (·.slot 31) = some (some { base := 0xFFFFFFFF, len := 0 }) := by
  decide

/-- The last byte of the memory, an empty record beyond the memory, and the last byte's own write. -/
theorem witness_BootWritesPopulateTheClips :
    ((awaiting (.writeSlot 31 0xFFFFFFFF 1)).awaits (.writeSlot 31 0xFFFFFFFF 1) [] ∧
      (awaiting (.writeSlot 31 0xFFFFFFFF 1)).clipsFixed = false ∧ 0xFFFFFFFF < 2 ^ demo.cfg.clipAddrW ∧
      0xFFFFFFFF + (1#32).toNat ≤ demo.cfg.clipMemSize) ∧
    ((smallClips (.writeSlot 31 0xFFFFFFFF 0)).awaits (.writeSlot 31 0xFFFFFFFF 0) [] ∧
      (smallClips (.writeSlot 31 0xFFFFFFFF 0)).clipsFixed = false ∧
      0xFFFFFFFF < 2 ^ (smallClips .readButtons).cfg.clipAddrW ∧ (0#32).toNat = 0) ∧
    ((awaiting (.writeClip 0xFFFFFFFF 7)).Inv ∧ (awaiting (.writeClip 0xFFFFFFFF 7)).awaits (.writeClip 0xFFFFFFFF 7) [] ∧
      (awaiting (.writeClip 0xFFFFFFFF 7)).clipsFixed = false ∧ 0xFFFFFFFF < demo.cfg.clipMemSize) :=
  ⟨⟨awaiting_awaits _, rfl, by decide, by decide⟩, ⟨⟨rfl, rfl, rfl⟩, rfl, by decide, by decide⟩,
   ⟨awaiting_inv _, awaiting_awaits _, rfl, by decide⟩⟩

theorem awaiting_slot (e : Event) : (awaiting e).slot 3 = some clipA := (demo_slot 3).trans (by decide)

/-- The last position before completion. -/
def atLastSample : State := { demo with clip := { pos := 1, frac := 4, last := 0x7E } }

theorem witness_ClipStepAdvancesOneOutputSample :
    atLastSample.Inv ∧ atLastSample.slot 3 = some clipA ∧ atLastSample.clip.pos.toNat + 2 < clipA.len.toNat :=
  ⟨⟨demo_inv.1, demo_inv.2, demo_inv.3, demo_inv.4, demo_readable, fun _ h => (by cases h), demo_inv.7⟩,
   (demo_slot 3).trans (by decide), by decide⟩

/-- The machine at the position where clip A completes. -/
def atEndOfClip : State := { awaiting (.fillSample 3) with clip := { pos := 2, frac := 0, last := 0x7A } }

theorem witness_CompleteClipFillsSilence :
    ((awaiting (.fillSample 32)).Inv ∧ (awaiting (.fillSample 32)).awaits (.fillSample 32) [] ∧ nClips ≤ (32#8).toNat) ∧
    (atEndOfClip.Inv ∧ atEndOfClip.awaits (.fillSample 3) [] ∧
      ∃ c, atEndOfClip.slot 3 = some c ∧ c.len.toNat ≤ atEndOfClip.clip.pos.toNat + 2) :=
  ⟨⟨awaiting_inv _, awaiting_awaits _, by decide⟩,
   ⟨⟨demo_inv.1, demo_inv.2, demo_inv.3, demo_inv.4, demo_readable, fun _ h => (by cases h), demo_inv.7⟩,
    ⟨rfl, rfl, rfl⟩, clipA, (demo_slot 3).trans (by decide), by decide⟩⟩

theorem witness_FillSampleIsClipStepsThenPadding :
    ((awaiting (.fillSample 255)).Inv ∧ (awaiting (.fillSample 255)).awaits (.fillSample 255) [] ∧
      nClips ≤ (255#8).toNat) ∧
    ((awaiting (.fillSample 3)).Inv ∧ (awaiting (.fillSample 3)).awaits (.fillSample 3) [] ∧
      (awaiting (.fillSample 3)).slot 3 ≠ none) :=
  ⟨⟨awaiting_inv _, awaiting_awaits _, by decide⟩,
   ⟨awaiting_inv _, awaiting_awaits _, by rw [awaiting_slot]; nofun⟩⟩

theorem witness_ClipPlaysItsExactCount :
    demo.Inv ∧ demo.slot 3 = some clipA ∧ 2 ≤ clipA.len.toNat ∧ demo.clip.pos = 0 ∧ demo.clip.frac = 0 :=
  ⟨demo_inv, (demo_slot 3).trans (by decide), by decide, rfl, rfl⟩

theorem witness_ButtonPollUpdatesEachCounter : (awaiting (.buttonPoll 0x45)).awaits (.buttonPoll 0x45) [] :=
  awaiting_awaits _

/-- Seven counters of which three are above 0, and the two places the lever may have. -/
theorem witness_ReadButtonsReturnsPressedMask :
    (demo.cfg.wf = true ∧ (awaiting .readButtons).awaits .readButtons [] ∧ (5 : Fin 7).val < 6 ∧
      6 ≤ 7 ∧ 7 ≠ demo.cfg.whammyBit) ∧
    ({ smallConfig with whammyBit := 7 } : Config).wf = true :=
  ⟨⟨by decide, awaiting_awaits _, by decide, by decide, by decide⟩, by decide⟩

theorem witness_SetDebounceWritesOnlyTheCycles :
    ({ demo with pending := [(.producer, .setDebounce 10), (.producer, .buttonPoll 1)] } : State).awaits (.setDebounce 10)
        [(.producer, .buttonPoll 1)] ∧ (1#7).getLsbD (0 : Fin 7) = true :=
  ⟨⟨rfl, rfl, rfl⟩, by decide⟩

theorem witness_ReleaseIsHeldForTheCycles :
    (0b0000001#7).getLsbD (0 : Fin 7) = true ∧ ∀ raw ∈ [0b0000010#7, 0b1111110#7], raw.getLsbD (0 : Fin 7) = false := by decide

/-- One poll that counts up, one that counts down and accepts, and one that does not accept. -/
theorem witness_EncoderPollDecodesSettledRise :
    (afterSteps.awaits (.encoderPoll true true) [] ∧ (afterSteps.dec.poll true true).1 = .plus) ∧
    ((({ beforeRise with hB32 := 0, hB8 := 0 } : Decoder).poll true false).1 = .minus ∧
      (({ beforeRise with hB32 := 0, hB8 := 0 } : Decoder).poll true false).2.accepts = true) ∧
    (beforeRise.poll false true).2.accepts = false :=
  ⟨⟨⟨rfl, rfl, rfl⟩, by decide⟩, by decide, by decide⟩

set_option maxRecDepth 4000 in
theorem witness_UnsettledLinesEmitNoStep :
    (List.replicate 31 (true, false)).length = 31 ∧
      ((beforeRise.pollAll (List.replicate 31 (true, false))).2.poll true false).2.accepts = true := by decide

theorem witness_ReadEncoderDeltaReturnsAndClears :
    ({ demo with pending := [(.producer, .readEncoderDelta), (.producer, .readEncoderDelta)] } : State).awaits
      .readEncoderDelta [(.producer, .readEncoderDelta)] := ⟨rfl, rfl, rfl⟩

end Sys2Proof.Machine.Tests
end

/-! PROOFS. What a taken event does, said once as a relation, and what each register and memory keeps across it. -/

namespace Sys2Proof.Machine

/-- The ways in which an event can answer a next state, one constructor per event of R13: the duties it met and the whole
state it leaves. `perform_effect` ties it to the model. -/
inductive EventEffect (s : State) : Event → State → Prop where
  | evaluate {plen : BitVec 11} {t u : BitVec 64} (bounded : plen.toNat ≤ maxProgramLen) :
      EventEffect s (.evaluate plen t u) { s with run := some (vmReset plen t u) }
  | fillSample {k : BitVec 8} {done : Bool} {filled : State}
      (loop : fillLoop k s.cfg.bufferSize 0 false s = .ok (done, filled)) :
      EventEffect s (.fillSample k)
        { s with clip := filled.clip, outBuf := filled.outBuf, clipsFixed := true, replies := .filled done :: s.replies }
  | buttonPoll {raw : BitVec 7} : EventEffect s (.buttonPoll raw) { s with deb := s.deb.poll raw }
  | readButtons : EventEffect s .readButtons
      { s with replies := .mask (buttonMask s.cfg.whammyBit s.deb.cnt) :: s.replies }
  | setDebounce {v : Byte} : EventEffect s (.setDebounce v) { s with deb := s.deb.setCycles v }
  | encoderPoll {a b : Bool} : EventEffect s (.encoderPoll a b)
      { s with dec := (s.dec.poll a b).2, replies := .polled (s.dec.poll a b).1 :: s.replies }
  | readEncoderDelta : EventEffect s .readEncoderDelta
      { s with dec := s.dec.readClear.2, replies := .delta s.dec.readClear.1 :: s.replies }
  | writeProg {offset : BitVec 10} {v : Byte} :
      EventEffect s (.writeProg offset v) { s with prog := s.prog.write offset.toNat v }
  | writeSlot {slot : BitVec 5} {base : Nat} {len : BitVec 32} (unfixed : s.clipsFixed = false)
      (readable : base < 2 ^ s.cfg.clipAddrW ∧ (len.toNat = 0 ∨ base + len.toNat ≤ s.cfg.clipMemSize)) :
      EventEffect s (.writeSlot slot base len)
        { s with clipTab := s.clipTab.set slot.toNat (some { base := base, len := len }) slot.isLt }
  | writeClip {addr : Nat} {v : Byte} (unfixed : s.clipsFixed = false) (inside : addr < s.cfg.clipMemSize) :
      EventEffect s (.writeClip addr v) { s with clipMem := s.clipMem.write addr v }
  | reset (first : s.resetDone = false) : EventEffect s .reset
      { s with run := none, clip := .atReset, deb := .atReset, dec := .atReset,
               resetDone := true, clipsFixed := false, replies := [] }

theorem perform_effect {s s' : State} {e : Event} (h : s.perform e = .next s') : EventEffect s e s' := by
  cases e with
  | evaluate plen t u =>
    obtain ⟨bounded, rfl⟩ := startRun_next h
    exact .evaluate bounded
  | fillSample k =>
    obtain ⟨done, filled, loop, rfl⟩ := fillSample_next h
    exact .fillSample loop
  | buttonPoll raw => cases h; exact .buttonPoll
  | readButtons => cases h; exact .readButtons
  | setDebounce v => cases h; exact .setDebounce
  | encoderPoll a b => cases h; exact .encoderPoll
  | readEncoderDelta => cases h; exact .readEncoderDelta
  | writeProg offset v => cases h; exact .writeProg
  | writeSlot slot base len =>
    obtain ⟨unfixed, readable, rfl⟩ := writeSlot_next h
    exact .writeSlot unfixed readable
  | writeClip addr v =>
    obtain ⟨unfixed, inside, rfl⟩ := writeClip_next h
    exact .writeClip unfixed inside
  | reset =>
    obtain ⟨first, rfl⟩ := powerOnReset_next h
    exact .reset first

/-- A step changes at most the run and the replies, or it is the effect of the oldest event, taken between runs. -/
theorem step_effect {s s' : State} (h : step s = .next s') :
    s' = { s with run := s'.run, replies := s'.replies } ∨
    ∃ e rest, s.run = none ∧ s.pending = (e.owner, e) :: rest ∧ EventEffect { s with pending := rest } e s' := by
  rcases step_cases h with ⟨-, -, rfl⟩ | ⟨e, rest, hr, hp, -, hperf⟩ | ⟨r, -, -, rfl⟩ | ⟨r, i, -, -, -, -, rfl⟩
  · exact .inl rfl
  · exact .inr ⟨e, rest, hr, hp, perform_effect hperf⟩
  · exact .inl rfl
  · exact .inl rfl

/-- A step of a run changes at most the run and the replies, and a run that goes on executed one opcode (R13, R82). -/
theorem step_of_run {s s' : State} {r : Run} (hr : s.run = some r) (h : step s = .next s') :
    s' = { s with run := s'.run, replies := s'.replies } ∧
    ∀ r', s'.run = some r' → ∃ i, r' = opcodeEffect s.cfg.stackCap i r := by
  rcases step_cases h with ⟨hn, -⟩ | ⟨e, rest, hn, -⟩ | ⟨r₀, -, -, rfl⟩ | ⟨r₀, i, hr₀, -, -, -, rfl⟩
  · simp [hr] at hn
  · simp [hr] at hn
  · exact ⟨rfl, nofun⟩
  · obtain rfl : r₀ = r := by simpa [hr] using hr₀.symm
    exact ⟨rfl, fun r' hr' => ⟨i, by simpa using hr'.symm⟩⟩

/-! ## The settled levels after a poll -/

/-- A poll stores the sample of line A exactly when it accepts (R140). -/
@[simp] theorem poll_sA (d : Decoder) (a b : Bool) :
    (d.poll a b).2.sA = if (d.poll a b).2.accepts then a else d.sA := by
  rw [poll_accepts]
  simp only [poll_registers, Decoder.accumulate_sA, Decoder.settle_sA, Decoder.shift_hA32, Decoder.shift_sA,
    shiftIn32_getLsbD, if_true]

/-- A poll stores the sample of line B exactly when it accepts (R140). -/
@[simp] theorem poll_sB (d : Decoder) (a b : Bool) :
    (d.poll a b).2.sB = if (d.poll a b).2.accepts then b else d.sB := by
  rw [poll_accepts]
  simp only [poll_registers, Decoder.accumulate_sB, Decoder.settle_sB, Decoder.shift_hB32, Decoder.shift_sB,
    shiftIn32_getLsbD, if_true]

/-- A poll that changes a settled level accepts, and stores the samples of both lines (R140). -/
theorem poll_writes_levels {d : Decoder} {a b : Bool} (hne : (d.poll a b).2.sA ≠ d.sA ∨ (d.poll a b).2.sB ≠ d.sB) :
    (d.poll a b).2.accepts = true ∧ (d.poll a b).2.sA = a ∧ (d.poll a b).2.sB = b := by
  have hacc : (d.poll a b).2.accepts = true := by
    by_contra hrej
    simp [hrej] at hne
  simp [hacc]

/-! ## What an event keeps -/

section

variable {s s' : State} {e : Event}

/-- No event writes a parameter (R44). -/
theorem EventEffect.cfg_eq (h : EventEffect s e s') : s'.cfg = s.cfg := by
  cases h <;> rfl

/-- `PROG` is written by the host's write alone (R60). -/
theorem EventEffect.writes_prog (h : EventEffect s e s') (hne : s'.prog ≠ s.prog) :
    ∃ offset v, e = .writeProg offset v := by
  cases h with
  | writeProg => exact ⟨_, _, rfl⟩
  | _ => exact absurd rfl hne

/-- Once fixed, the clips are written by no event but a first `reset` (R41, R173). -/
theorem EventEffect.keeps_clips (h : EventEffect s e s') (hd : s.resetDone = true) (hf : s.clipsFixed = true) :
    s'.clipTab = s.clipTab ∧ s'.clipMem = s.clipMem ∧ s'.clipsFixed = true := by
  cases h with
  | fillSample => exact ⟨rfl, rfl, rfl⟩
  | writeSlot unfixed => simp [hf] at unfixed
  | writeClip unfixed => simp [hf] at unfixed
  | reset first => simp [hd] at first
  | _ => exact ⟨rfl, rfl, hf⟩

/-- After `reset`, `DEBOUNCE_CYCLES` is written by `setDebounce` alone, with its value (R31, R131). -/
theorem EventEffect.writes_cycles (h : EventEffect s e s') (hd : s.resetDone = true)
    (hne : s'.deb.cycles ≠ s.deb.cycles) : ∃ v, e = .setDebounce v ∧ s'.deb.cycles = v := by
  cases h with
  | setDebounce => exact ⟨_, rfl, rfl⟩
  | reset first => simp [hd] at first
  | _ => exact absurd rfl hne

/-- After `reset`, the counters are written by `button_poll` alone (R32, R128). -/
theorem EventEffect.writes_cnt (h : EventEffect s e s') (hd : s.resetDone = true)
    (hne : s'.deb.cnt ≠ s.deb.cnt) : ∃ raw, e = .buttonPoll raw := by
  cases h with
  | buttonPoll => exact ⟨_, rfl⟩
  | reset first => simp [hd] at first
  | _ => exact absurd rfl hne

/-- After `reset`, the settled levels are written by an accepting `encoder_poll` alone, with its own levels (R36, R140). -/
theorem EventEffect.writes_levels (h : EventEffect s e s') (hd : s.resetDone = true)
    (hne : s'.dec.sA ≠ s.dec.sA ∨ s'.dec.sB ≠ s.dec.sB) :
    ∃ a b, e = .encoderPoll a b ∧ s'.dec.accepts = true ∧ s'.dec.sA = a ∧ s'.dec.sB = b := by
  cases h with
  | encoderPoll => exact ⟨_, _, rfl, poll_writes_levels hne⟩
  | reset first => simp [hd] at first
  | _ => simp at hne

end

/-! ## The stack under its top two entries -/

/-- Two stacks (top first) with the same entries under at most two at the top, whose depths differ by at most one. -/
def SameUnderTopTwo (xs ys : List Word) : Prop :=
  ∃ top top' under : List Word, xs = top ++ under ∧ ys = top' ++ under ∧ top.length ≤ 2 ∧
    top.length ≤ top'.length + 1 ∧ top'.length ≤ top.length + 1

theorem SameUnderTopTwo.refl (xs : List Word) : SameUnderTopTwo xs xs :=
  ⟨[], [], xs, rfl, rfl, by simp⟩

theorem SameUnderTopTwo.cons (v : Word) (xs : List Word) : SameUnderTopTwo xs (v :: xs) :=
  ⟨[], [v], xs, rfl, rfl, by simp⟩

theorem sameUnderTopTwo_push (cap : Nat) (v : Word) (xs : List Word) :
    SameUnderTopTwo xs (if xs.length < cap then v :: xs else xs) := by
  split
  · exact .cons v xs
  · exact .refl xs

theorem sameUnderTopTwo_binary (f : Word → Word → Word) (xs : List Word) : SameUnderTopTwo xs (binaryStack f xs) := by
  unfold binaryStack
  split
  · rename_i b a rest
    exact ⟨[b, a], [f a b], rest, rfl, rfl, by simp⟩
  · exact .refl xs

theorem sameUnderTopTwo_swapped (xs : List Word) : SameUnderTopTwo xs (swappedStack xs) := by
  unfold swappedStack
  split
  · rename_i x y rest
    exact ⟨[x, y], [y, x], rest, rfl, rfl, by simp⟩
  · exact .refl xs

theorem sameUnderTopTwo_duplicated (cap : Nat) (xs : List Word) : SameUnderTopTwo xs (duplicatedStack cap xs) := by
  cases xs with
  | nil => exact .refl []
  | cons x rest => exact sameUnderTopTwo_push cap x (x :: rest)

/-- No opcode reaches under the top two entries, and none moves the depth by more than one (R19, R95). -/
theorem opcodeEffect_sameUnderTopTwo (cap : Nat) (i : Instr) (r : Run) :
    SameUnderTopTwo r.stack (opcodeEffect cap i r).stack := by
  cases i with
  | lit | t | u =>
    simp only [opcodeEffect, Run.advance_stack, Run.push_stack]
    exact sameUnderTopTwo_push cap _ r.stack
  | and | or | xor | add | sub | mul | div | mod | shl | shr =>
    simp only [opcodeEffect, Run.advance_stack, Run.binary_stack]
    exact sameUnderTopTwo_binary _ r.stack
  | swp =>
    simp only [opcodeEffect, Run.advance_stack, Run.swap_stack]
    exact sameUnderTopTwo_swapped r.stack
  | dup =>
    simp only [opcodeEffect, Run.advance_stack, Run.duplicate_stack]
    exact sameUnderTopTwo_duplicated cap r.stack
  | endOp | undef1F | undef20 | undef40 | undef80 => exact .refl r.stack

theorem SameUnderTopTwo.depth {xs ys : List Word} (h : SameUnderTopTwo xs ys) :
    xs.length ≤ ys.length + 1 ∧ ys.length ≤ xs.length + 1 := by
  obtain ⟨top, top', under, rfl, rfl, -, hfew, hmore⟩ := h
  simp only [List.length_append]
  omega

theorem SameUnderTopTwo.entry_eq {r r' : Run} (h : SameUnderTopTwo r.stack r'.stack) {j : Nat} (hj : j + 2 < r.sp) :
    r'.entry j = r.entry j := by
  obtain ⟨top, top', under, hs, hs', htop, -, -⟩ := h
  have hlen : j < under.reverse.length := by
    simp only [Run.sp, hs, List.length_append] at hj
    rw [List.length_reverse]
    omega
  simp only [Run.entry, hs, hs', List.reverse_append, List.getElem?_append_left hlen]

/-! ## The obligations -/

/-- Settles O23: the frame of the stack and the depth lemma of `opcodeEffect`, for the one effect an opcode has. -/
theorem opcodesReachOnlyTheTopTwo : Obligations.OpcodesReachOnlyTheTopTwo := by
  unfold Obligations.OpcodesReachOnlyTheTopTwo
  intro i s s' r r' hr hexec hr'
  rw [exec_some hr] at hexec
  cases hexec
  cases hr'
  have hsame := opcodeEffect_sameUnderTopTwo s.cfg.stackCap i r
  exact ⟨hsame.depth.1, hsame.depth.2, opcodeEffect_depth i, fun _ hj => hsame.entry_eq hj⟩

/-- Settles O28: a step of a run is an opcode, which writes none of the run's inputs, and no event writes a parameter. -/
theorem runInputsAreConstant : Obligations.RunInputsAreConstant := by
  unfold Obligations.RunInputsAreConstant
  intro s s' h
  constructor
  · rcases step_effect h with hs | ⟨e, rest, -, -, he⟩
    · rw [hs]
    · exact he.cfg_eq
  · intro r hr
    obtain ⟨hs, hgoes⟩ := step_of_run hr h
    refine ⟨by rw [hs], fun r' hr' => ?_⟩
    obtain ⟨i, rfl⟩ := hgoes r' hr'
    simp

/-- Settles O31: only an event changes `PROG`, and only the host's write, which its owner issues. -/
theorem onlyTheHostWritesTheProgram : Obligations.OnlyTheHostWritesTheProgram := by
  unfold Obligations.OnlyTheHostWritesTheProgram
  intro s s' h hne
  rcases step_effect h with hs | ⟨e, rest, hr, hp, he⟩
  · exact absurd (by rw [hs]) hne
  · obtain ⟨offset, v, rfl⟩ := he.writes_prog hne
    exact ⟨offset, v, rest, hr, hp⟩

/-- Settles O33: a write of fixed clips is refused, and a `fillSample` sets the mark and leaves the clips. -/
theorem clipsAreReadOnlyOncePlayed : Obligations.ClipsAreReadOnlyOncePlayed := by
  unfold Obligations.ClipsAreReadOnlyOncePlayed
  constructor
  · intro s s' hd hf h
    rcases step_effect h with hs | ⟨e, rest, -, -, he⟩
    · rw [hs]
      exact ⟨rfl, rfl, hf⟩
    · exact he.keeps_clips hd hf
  · intro s s' k rest hawaits h
    rw [step_awaits hawaits] at h
    cases perform_effect h
    exact ⟨rfl, rfl, rfl⟩

/-- Settles O35: what each of the three register groups was written by, event by event. -/
theorem registersAreWrittenOnlyByTheirEvents : Obligations.RegistersAreWrittenOnlyByTheirEvents := by
  unfold Obligations.RegistersAreWrittenOnlyByTheirEvents
  intro s s' hd h
  rcases step_effect h with hs | ⟨e, rest, -, hp, he⟩
  · rw [hs]
    simp
  · refine ⟨fun hne => ?_, fun hne => ?_, fun hne => ?_⟩
    · obtain ⟨v, rfl, hv⟩ := he.writes_cycles hd hne
      exact ⟨v, rest, hp, hv⟩
    · obtain ⟨raw, rfl⟩ := he.writes_cnt hd hne
      exact ⟨raw, rest, hp⟩
    · obtain ⟨a, b, rfl, hlevels⟩ := he.writes_levels hd hne
      exact ⟨a, b, rest, hp, hlevels⟩

/-- Settles O32: the awaited write is `Memory.write` on the canonical `PROG`. -/
theorem hostWriteSetsOneProgramByte : Obligations.HostWriteSetsOneProgramByte := by
  unfold Obligations.HostWriteSetsOneProgramByte
  intro s offset v rest hinv hawaits
  exact ⟨s.prog.write offset.toNat v, step_awaits hawaits, Memory.read_write_same hinv.progWf.1 _ v,
    fun a ha => Memory.read_write_other s.prog v ha⟩

end Sys2Proof.Machine

/-! PROOFS. The encoder: what the step of a poll means, what each event leaves of the unread steps, and the claims about
`delta`. -/

namespace Sys2Proof.Machine

/-! ## The step of a poll -/

/-- A rejected poll emits no step (R138). -/
theorem stepOf_of_rejected {d : Decoder} (hrej : d.accepts = false) : d.stepOf = .zero := by
  simp [Decoder.stepOf, hrej]

/-- An accepted poll steps on a high A after a low settled level, and the level of B is the direction (R139). -/
theorem stepOf_of_accepted {d : Decoder} (hacc : d.accepts = true) : d.stepOf =
    if d.hA32.getLsbD 0 && !d.sA then if d.hB32.getLsbD 0 then .plus else .minus else .zero := by
  simp [Decoder.stepOf, hacc]

/-- On whole histories: a step is a settled rise of A, +1 with B settled high and -1 with B settled low (R138, R139). -/
theorem stepOf_iff_settled_rise (d : Decoder) :
    (d.stepOf = .plus ↔
      d.hA32 = 0xFFFFFFFF#32 ∧ d.hA8 = 0xFF#8 ∧ d.hB32 = 0xFFFFFFFF#32 ∧ d.hB8 = 0xFF#8 ∧ d.sA = false) ∧
    (d.stepOf = .minus ↔
      d.hA32 = 0xFFFFFFFF#32 ∧ d.hA8 = 0xFF#8 ∧ d.hB32 = 0#32 ∧ d.hB8 = 0#8 ∧ d.sA = false) := by
  cases hacc : d.accepts with
  | true =>
    rw [stepOf_of_accepted hacc]
    obtain ⟨⟨hA32, -⟩ | ⟨hA32, hA8⟩, hB⟩ := (accepts_iff d).1 hacc
    · simp [hA32]
    · obtain ⟨hB32, hB8⟩ | ⟨hB32, hB8⟩ := hB
      · cases d.sA <;> simp [hA32, hA8, hB32, hB8]
      · cases d.sA <;> simp [hA32, hA8, hB32, hB8]
  | false =>
    have hunsettled := (accepts_iff d).not.1 (by simp [hacc])
    rw [stepOf_of_rejected hacc]
    constructor
    · refine iff_of_false nofun fun ⟨hA32, hA8, hB32, hB8, _⟩ => hunsettled ?_
      exact ⟨.inr ⟨hA32, hA8⟩, .inr ⟨hB32, hB8⟩⟩
    · refine iff_of_false nofun fun ⟨hA32, hA8, hB32, hB8, _⟩ => hunsettled ?_
      exact ⟨.inr ⟨hA32, hA8⟩, .inl ⟨hB32, hB8⟩⟩

/-- The step a poll returns, by the histories it leaves and the settled A level before it (R136, R139). -/
theorem poll_step_iff (d : Decoder) (a b : Bool) :
    ((d.poll a b).1 = .plus ↔ (d.poll a b).2.hA32 = 0xFFFFFFFF#32 ∧ (d.poll a b).2.hA8 = 0xFF#8 ∧
      (d.poll a b).2.hB32 = 0xFFFFFFFF#32 ∧ (d.poll a b).2.hB8 = 0xFF#8 ∧ d.sA = false) ∧
    ((d.poll a b).1 = .minus ↔ (d.poll a b).2.hA32 = 0xFFFFFFFF#32 ∧ (d.poll a b).2.hA8 = 0xFF#8 ∧
      (d.poll a b).2.hB32 = 0#32 ∧ (d.poll a b).2.hB8 = 0#8 ∧ d.sA = false) := by
  simpa [poll_step] using stepOf_iff_settled_rise (d.shift a b)

/-! ## The unread steps -/

@[simp] theorem unreadSteps_polled (st : EncoderStep) (older : List Reply) :
    unreadSteps (.polled st :: older) = st.value + unreadSteps older := rfl
@[simp] theorem unreadSteps_delta (v : BitVec 32) (older : List Reply) : unreadSteps (.delta v :: older) = 0 := rfl
@[simp] theorem unreadSteps_result (sample : Byte) (older : List Reply) :
    unreadSteps (.result sample :: older) = unreadSteps older := rfl
@[simp] theorem unreadSteps_filled (done : Bool) (older : List Reply) :
    unreadSteps (.filled done :: older) = unreadSteps older := rfl
@[simp] theorem unreadSteps_mask (m : Byte) (older : List Reply) :
    unreadSteps (.mask m :: older) = unreadSteps older := rfl

section

variable {s s' : State} {e : Event}

/-- A poll adds its step to `delta` and to the unread steps, a read and a `reset` clear both, and no other event touches
either (R59, R141, R142). -/
theorem EventEffect.keeps_unread_sum (h : EventEffect s e s') (hsum : s.dec.delta = unreadSteps s.replies) :
    s'.dec.delta = unreadSteps s'.replies := by
  cases h with
  | encoderPoll => rw [poll_delta, unreadSteps_polled, hsum, BitVec.add_comm]
  | readEncoderDelta => rw [unreadSteps_delta, Decoder.readClear_registers]
  | reset => rfl
  | _ => simpa using hsum

/-- A value that an event returns as a read is the `delta` before it (R142). -/
theorem EventEffect.returned_delta (h : EventEffect s e s') {v : BitVec 32} (hv : s'.replies = .delta v :: s.replies) :
    v = s.dec.delta := by
  cases h with
  | readEncoderDelta => simpa using hv.symm
  | _ => simp at hv

end

/-! ## The obligations -/

/-- Settles O51: a read is `Decoder.readClear`, and the read after it finds the accumulator cleared. -/
theorem readEncoderDeltaReturnsAndClears : Obligations.ReadEncoderDeltaReturnsAndClears := by
  unfold Obligations.ReadEncoderDeltaReturnsAndClears
  intro s rest hawaits
  refine ⟨_, step_awaits hawaits, rfl, fun more hmore => ?_⟩
  obtain ⟨hrun, hdone, -⟩ := hawaits
  exact ⟨_, step_awaits (e := .readEncoderDelta) ⟨hrun, hdone, hmore⟩, rfl⟩

/-- Settles O48: the poll's registers, its step by the histories it leaves, and its settled levels by its acceptance. -/
theorem encoderPollDecodesSettledRise : Obligations.EncoderPollDecodesSettledRise := by
  unfold Obligations.EncoderPollDecodesSettledRise
  intro s a b rest hawaits
  obtain ⟨hplus, hminus⟩ := poll_step_iff s.dec a b
  refine ⟨(s.dec.poll a b).1, (s.dec.poll a b).2, step_awaits hawaits, fun i hi => ?_, fun i hi => ?_, hplus, hminus,
    fun hacc => ?_, fun hrej => ?_, ?_⟩
  · simp only [poll_hA32, poll_hB32, shiftIn32_getLsbD, hi, decide_true, Bool.true_and, and_self]
  · simp only [poll_hA8, poll_hB8, shiftIn8_getLsbD, hi, decide_true, Bool.true_and, and_self]
  · simp [hacc]
  · simp [hrej]
  · rw [poll_delta]
    cases (s.dec.poll a b).1 <;> rfl

/-- Settles O27: the events keep the sum and a read returns it, and the only reply
outside an event, the result of a stopped run, carries no step. -/
theorem deltaHoldsExactlyTheUnreadSteps : Obligations.DeltaHoldsExactlyTheUnreadSteps := by
  unfold Obligations.DeltaHoldsExactlyTheUnreadSteps
  intro s s' hsum h
  rcases step_cases h with ⟨-, -, rfl⟩ | ⟨e, rest, -, -, -, hperf⟩ | ⟨r, -, -, rfl⟩ | ⟨r, i, -, -, -, -, rfl⟩
  · exact ⟨hsum, by simp⟩
  · have heffect := perform_effect hperf
    exact ⟨heffect.keeps_unread_sum hsum, fun v hv => (heffect.returned_delta hv).trans hsum⟩
  · exact ⟨by simpa using hsum, by simp⟩
  · exact ⟨hsum, by simp⟩

end Sys2Proof.Machine

/-! PROOFS. The decoder and the encoder over an injective map, the rows of the opcode table, and the claims about all bytes. -/

namespace Sys2Proof

/-! ## Undefined bytes -/

/-- A word is its upper bits over its lower bits. -/
theorem append_extractLsb'_of_upper {m k : Nat} {upper : BitVec m} {b : BitVec (m + k)} (h : b.extractLsb' k m = upper) :
    upper ++ b.extractLsb' 0 k = b := by
  rw [← h, BitVec.extractLsb'_append_extractLsb'_eq_extractLsb' (Nat.zero_add k).symm, BitVec.extractLsb'_eq_self]

/-- In each of the four rows the fixed upper bits and the bits carried make up the byte (R72, log 3). -/
@[simp] theorem undefinedByte_undefinedOf (b : Byte) : (undefinedOf b).undefinedByte = some b := by
  unfold undefinedOf
  split_ifs
  all_goals
    refine congrArg some (append_extractLsb'_of_upper ?_)
    ext j hj
    interval_cases j <;> simp_all

/-- An undefined byte is its own encoding under every map. -/
theorem encodeWith_undefinedOf (enc : List Byte) (b : Byte) : encodeWith enc (undefinedOf b) = some b := by
  simp [encodeWith]

/-- An undefined byte is well formed exactly under the maps that do not use it (R72). -/
theorem wfFor_undefinedOf (enc : List Byte) (b : Byte) : (undefinedOf b).wfFor enc = true ↔ b ∉ enc := by
  simp [Instr.wfFor]

/-! ## The opcodes -/

theorem opcodes_nodup : opcodes.Nodup := by decide

theorem undefinedByte_of_mem_opcodes {i : Instr} (h : i ∈ opcodes) : i.undefinedByte = none := by
  have hall : ∀ i ∈ opcodes, i.undefinedByte = none := by decide
  exact hall i h

/-- A well-formed map gives exactly one byte for each opcode (R77). -/
theorem length_of_encWf {enc : List Byte} (hmap : encWf enc = true) : enc.length = opcodes.length := by
  simp only [encWf, Bool.and_eq_true, decide_eq_true_eq] at hmap
  exact hmap.1

/-! ## A map as a list of pairs -/

section

variable {enc : List Byte} {is : List Instr} {b : Byte} {i : Instr}

/-- A map gives a byte only opcodes of its list. -/
theorem mem_of_opcodeOf (h : opcodeOf enc is b = some i) : i ∈ is := by
  fun_induction opcodeOf enc is b with
  | case1 => simp_all
  | case2 e es j js b hlater ih => exact .tail _ (ih h)
  | case3 => simp at h

/-- The opcode a map gives a byte is given that byte, because no opcode stands twice in the list. -/
theorem byteOf_of_opcodeOf (hdistinct : is.Nodup) (h : opcodeOf enc is b = some i) : byteOf enc is i = some b := by
  fun_induction opcodeOf enc is b with
  | case1 => simp_all [byteOf]
  | case2 e es j js b hlater ih =>
    obtain ⟨hj, hjs⟩ := List.nodup_cons.1 hdistinct
    have hne : j ≠ i := fun hji => hj (hji ▸ mem_of_opcodeOf h)
    rw [byteOf, if_neg hne]
    exact ih hjs h
  | case3 => simp at h

/-- A byte without an opcode is outside the image of a map that gives no more bytes than there are opcodes. -/
theorem not_mem_of_opcodeOf_none (hlen : enc.length ≤ is.length) (h : opcodeOf enc is b = none) : b ∉ enc := by
  fun_induction opcodeOf enc is b with
  | case1 => simp at h
  | case2 e es j js b hlater ih =>
    have hrest : b ∉ es := ih (by simpa using hlen) h
    simp [hrest, Ne.symm hlater]
  | case3 enc is b hshort =>
    match enc, is with
    | [], _ => exact List.not_mem_nil
    | e :: es, [] => simp at hlen
    | e :: es, j :: js => exact (hshort e es j js rfl rfl).elim

end

/-! ## Decoding -/

/-- What decoding a byte under a well-formed map can give: an opcode whose byte it is, or, outside the image of the map, the
undefined byte (R71, R72). -/
theorem decodeWith_cases {enc : List Byte} (hmap : encWf enc = true) (b : Byte) :
    (decodeWith enc b ∈ opcodes ∧ byteOf enc opcodes (decodeWith enc b) = some b) ∨
    (b ∉ enc ∧ decodeWith enc b = undefinedOf b) := by
  cases h : opcodeOf enc opcodes b with
  | some i =>
    have hdec : decodeWith enc b = i := by simp [decodeWith, h]
    rw [hdec]
    exact .inl ⟨mem_of_opcodeOf h, byteOf_of_opcodeOf opcodes_nodup h⟩
  | none =>
    exact .inr ⟨not_mem_of_opcodeOf_none (length_of_encWf hmap).le h, by simp [decodeWith, h]⟩

/-- Settles O4: a byte decodes to an opcode whose byte it is, or to the undefined byte it is. -/
theorem encodeInvertsDecode : Obligations.EncodeInvertsDecode := by
  unfold Obligations.EncodeInvertsDecode
  intro enc hmap b
  rcases decodeWith_cases hmap b with ⟨hop, hbyte⟩ | ⟨hout, hdec⟩
  · have hnone := undefinedByte_of_mem_opcodes hop
    exact ⟨by simp [Instr.wfFor, hnone], by simp [encodeWith, hnone, hbyte]⟩
  · rw [hdec]
    exact ⟨(wfFor_undefinedOf enc b).2 hout, encodeWith_undefinedOf enc b⟩

/-! ## The rows of the opcode table -/

/-- Every well-formed instruction has a byte under the map of R70 that its own row selects. -/
theorem matchesRow : ∀ i : Instr, Laws.MatchesRow.Statement i
  | .lit n => Laws.MatchesRow.lit n
  | .t => Laws.MatchesRow.t
  | .u => Laws.MatchesRow.u
  | .and => Laws.MatchesRow.and
  | .or => Laws.MatchesRow.or
  | .xor => Laws.MatchesRow.xor
  | .add => Laws.MatchesRow.add
  | .sub => Laws.MatchesRow.sub
  | .mul => Laws.MatchesRow.mul
  | .div => Laws.MatchesRow.div
  | .mod => Laws.MatchesRow.mod
  | .shl => Laws.MatchesRow.shl
  | .shr => Laws.MatchesRow.shr
  | .swp => Laws.MatchesRow.swp
  | .dup => Laws.MatchesRow.dup
  | .endOp => Laws.MatchesRow.endOp
  | .undef1F x => Laws.MatchesRow.undef1F x
  | .undef20 x => Laws.MatchesRow.undef20 x
  | .undef40 x => Laws.MatchesRow.undef40 x
  | .undef80 x => Laws.MatchesRow.undef80 x

theorem row_mem_tableRows (i : Instr) : i.row ∈ tableRows := by
  cases i <;> simp [tableRows, Instr.row]

/-- Rows that select a common byte agree on the bits both of them fix. -/
theorem patterns_agree_of_selects {r r' : Row} {b : Byte} (h : r.selects b = true) (h' : r'.selects b = true) :
    r.pattern &&& r'.mask = r'.pattern &&& r.mask := by
  simp only [Row.selects, decide_eq_true_eq] at h h'
  rw [← h, ← h', BitVec.and_assoc, BitVec.and_assoc, BitVec.and_comm r.mask]

/-- Two different rows of the table differ in a bit both of them fix. -/
theorem tableRows_eq_of_patterns_agree :
    ∀ r ∈ tableRows, ∀ r' ∈ tableRows, r.pattern &&& r'.mask = r'.pattern &&& r.mask → r = r' := by
  decide

/-- Settles O2: the byte of the decoded instruction is the byte itself, which its row selects, and two rows that select one
byte are the same row. -/
theorem everyByteSelectsExactlyItsRow : Obligations.EveryByteSelectsExactlyItsRow := by
  unfold Obligations.EveryByteSelectsExactlyItsRow
  intro b
  obtain ⟨hwf, hbyte⟩ := encodeInvertsDecode defaultEnc (by decide) b
  have hselects : (decodeWith defaultEnc b).row.selects b = true := by
    obtain ⟨b', hbyte', hrow⟩ := matchesRow _ hwf
    cases hbyte.symm.trans hbyte'
    exact hrow
  exact ⟨hselects, fun r hr h =>
    tableRows_eq_of_patterns_agree r hr _ (row_mem_tableRows _) (patterns_agree_of_selects h hselects)⟩

end Sys2Proof

/-! PROOFS. The run of the VM: its stop, the meaning of its opcodes on the stack, and the run as one function of the opcodes it
executes, which the claims about whole runs share. -/

namespace Sys2Proof.Machine

/-! ## The stop -/

/-- A run that has not decoded `END` and is not at its bound takes a step (R85). -/
theorem atStop_eq_false {r : Run} (hlive : r.stopped = false) (hbound : r.pc ≠ r.plen) : r.atStop = false := by
  simp [Run.atStop, hlive, hbound]

/-- The low 8 bits of the top of a stack, and 0 for an empty one (R86). -/
def topByte : List Word → Byte
  | top :: _ => BitVec.ofNat 8 top.toNat
  | [] => 0

theorem Run.result_eq_topByte (r : Run) : r.result = topByte r.stack := by
  obtain ⟨pc, stack, t32, u32, plen, stopped⟩ := r
  cases stack with
  | nil => rfl
  | cons top below => rw [Run.result, topByte, BitVec.ofNat_toNat, BitVec.setWidth_eq_extractLsb' (by omega)]

/-- Settles O7: the step is the stop of the run, whose result is a function of the stack alone. -/
theorem stoppedRunReturnsLowByteOfTop : Obligations.StoppedRunReturnsLowByteOfTop := by
  unfold Obligations.StoppedRunReturnsLowByteOfTop
  intro s r hr hstop
  refine ⟨r.result, step_stop hr ((atStop_iff r).2 hstop), ?_, ?_⟩
  · intro top below hs
    rw [Run.result_eq_topByte, hs, topByte, BitVec.toNat_ofNat]
  · intro hs
    rw [Run.result_eq_topByte, hs, topByte]

/-! ## One opcode -/

/-- Settles O5: the run is not at its stop and the fetch is inside `PROG`. -/
theorem stepRunsTheDecodedInstruction : Obligations.StepRunsTheDecodedInstruction := by
  unfold Obligations.StepRunsTheDecodedInstruction
  intro s r hr hlive hbound hpc
  exact step_opcode hr (atStop_eq_false hlive hbound) (fetch_inside hpc)

/-- The instruction that the byte at an offset of `PROG` decodes to. -/
def State.opcodeAt (s : State) (a : Nat) : Instr := decodeWith s.cfg.enc (s.prog.read a)

/-- A step of a run that has not stopped is the effect of the opcode at `pc` (R82). -/
theorem step_live {s : State} {r : Run} (hr : s.run = some r) (hlive : r.stopped = false) (hbound : r.pc ≠ r.plen)
    (hpc : r.pc.toNat < maxProgramLen) :
    step s = .next { s with run := some (opcodeEffect s.cfg.stackCap (s.opcodeAt r.pc.toNat) r) } := by
  rw [stepRunsTheDecodedInstruction s r hr hlive hbound hpc, exec_some hr, State.opcodeAt]

/-- Only `END` marks a live run as stopped (R85). -/
theorem opcodeEffect_stopped_iff (cap : Nat) (i : Instr) {r : Run} (hlive : r.stopped = false) :
    (opcodeEffect cap i r).stopped = true ↔ i = .endOp := by
  by_cases hi : i = .endOp
  · simp [hi, opcodeEffect_endOp]
  · simp [hi, opcodeEffect_stopped cap hi, hlive]

/-- Settles O8: a step of a run is its stop or one opcode, and only `END` sets the mark. -/
theorem runStopsExactlyAtEndOrBound : Obligations.RunStopsExactlyAtEndOrBound := by
  unfold Obligations.RunStopsExactlyAtEndOrBound
  intro s s' r hr h
  rcases step_cases h with ⟨hn, -⟩ | ⟨e, rest, hn, -⟩ | ⟨r₀, hr₀, hstop, rfl⟩ | ⟨r₀, i, hr₀, hgo, -, hi, rfl⟩
  · simp [hr] at hn
  · simp [hr] at hn
  · obtain rfl : r₀ = r := by simpa [hr] using hr₀.symm
    exact ⟨iff_of_true rfl ((atStop_iff r₀).1 hstop), nofun⟩
  · obtain rfl : r₀ = r := by simpa [hr] using hr₀.symm
    have hnot : ¬ (r₀.stopped = true ∨ r₀.pc = r₀.plen) := by simp [← atStop_iff, hgo]
    have hlive : r₀.stopped = false := by simpa using (not_or.1 hnot).1
    refine ⟨iff_of_false nofun hnot, fun r' hr' => ?_⟩
    cases hr'
    rw [← hi]
    exact opcodeEffect_stopped_iff _ i hlive

/-- Settles O22: an opcode acts on the run by `opcodeEffect`, whose frame lemmas give the rest. -/
theorem opcodesChangeOnlyTheRun : Obligations.OpcodesChangeOnlyTheRun := by
  unfold Obligations.OpcodesChangeOnlyTheRun
  intro i s s' h
  obtain ⟨r, hr, rfl⟩ := exec_next h
  refine ⟨r, _, hr, rfl, opcodeEffect_plen .., opcodeEffect_t32 .., opcodeEffect_u32 .., ?_, ?_, ?_⟩
  · exact fun hi => ⟨opcodeEffect_pc _ hi r, opcodeEffect_stopped _ hi r⟩
  · rintro rfl
    exact opcodeEffect_endOp ..
  · exact fun a => ⟨rfl, rfl, rfl⟩

/-- A push and the move of `pc`, on the whole run (R81, R83). -/
theorem Run.push_advance (cap : Nat) (v : Word) (r : Run) : (r.push cap v).advance =
    { r with pc := r.pc + 1, stack := if r.stack.length < cap then v :: r.stack else r.stack } := by
  rw [Run.push_eq]
  rfl

theorem literalValue_eq_ofNat (n : BitVec 4) : literalValue n = BitVec.ofNat 32 n.toNat :=
  (BitVec.ofNat_toNat 32 n).symm

/-- Settles O12: each of the three opcodes is a push of its value and the move of `pc`. -/
theorem pushingOpcodesPushOrDrop : Obligations.PushingOpcodesPushOrDrop := by
  unfold Obligations.PushingOpcodesPushOrDrop
  intro s r i v hr hi
  have heffect : opcodeEffect s.cfg.stackCap i r = (r.push s.cfg.stackCap v).advance := by
    rcases hi with ⟨n, rfl, rfl⟩ | ⟨rfl, rfl⟩ | ⟨rfl, rfl⟩
    · rw [← literalValue_eq_ofNat, opcodeEffect]
    · rw [opcodeEffect]
    · rw [opcodeEffect]
  rw [exec_some hr, heffect, Run.push_advance]

/-! ## The binary operators on integers -/

theorem fAnd_eq_ofNat (a b : Word) : fAnd a b = BitVec.ofNat 32 (a.toNat &&& b.toNat) := by
  apply BitVec.eq_of_toNat_eq
  rw [BitVec.toNat_ofNat, fAnd, BitVec.toNat_and, Nat.mod_eq_of_lt (Nat.and_lt_two_pow _ b.isLt)]

theorem fOr_eq_ofNat (a b : Word) : fOr a b = BitVec.ofNat 32 (a.toNat ||| b.toNat) := by
  apply BitVec.eq_of_toNat_eq
  rw [BitVec.toNat_ofNat, fOr, BitVec.toNat_or, Nat.mod_eq_of_lt (Nat.or_lt_two_pow a.isLt b.isLt)]

theorem fXor_eq_ofNat (a b : Word) : fXor a b = BitVec.ofNat 32 (a.toNat ^^^ b.toNat) := by
  apply BitVec.eq_of_toNat_eq
  rw [BitVec.toNat_ofNat, fXor, BitVec.toNat_xor, Nat.mod_eq_of_lt (Nat.xor_lt_two_pow a.isLt b.isLt)]

theorem fAdd_eq_ofNat (a b : Word) : fAdd a b = BitVec.ofNat 32 ((a.toNat + b.toNat) % 2 ^ 32) := by
  apply BitVec.eq_of_toNat_eq
  rw [BitVec.toNat_ofNat, fAdd, BitVec.toNat_add, Nat.mod_mod]

theorem fSub_eq_ofNat (a b : Word) :
    fSub a b = BitVec.ofNat 32 (if b.toNat ≤ a.toNat then a.toNat - b.toNat else a.toNat + 2 ^ 32 - b.toNat) := by
  apply BitVec.eq_of_toNat_eq
  rw [BitVec.toNat_ofNat, fSub, BitVec.toNat_sub]
  have ha := a.isLt
  have hb := b.isLt
  split <;> omega

theorem fMul_eq_ofNat (a b : Word) : fMul a b = BitVec.ofNat 32 ((a.toNat * b.toNat) % 2 ^ 32) := by
  apply BitVec.eq_of_toNat_eq
  rw [BitVec.toNat_ofNat, fMul, BitVec.toNat_mul, Nat.mod_mod]

theorem fDiv_eq_ofNat (a b : Word) : fDiv a b = BitVec.ofNat 32 (if b.toNat = 0 then 0 else a.toNat / b.toNat) := by
  by_cases hb : b = 0
  · simp [fDiv, hb]
  · rw [fDiv, if_neg hb, if_neg (by simpa [BitVec.toNat_eq] using hb), ← BitVec.toNat_udiv, BitVec.ofNat_toNat,
      BitVec.setWidth_eq]

theorem fMod_eq_ofNat (a b : Word) : fMod a b = BitVec.ofNat 32 (if b.toNat = 0 then 0 else a.toNat % b.toNat) := by
  by_cases hb : b = 0
  · simp [fMod, hb]
  · rw [fMod, if_neg hb, if_neg (by simpa [BitVec.toNat_eq] using hb), ← BitVec.toNat_umod, BitVec.ofNat_toNat,
      BitVec.setWidth_eq]

theorem fShl_eq_ofNat (a b : Word) :
    fShl a b = BitVec.ofNat 32 (if b.toNat ≤ 31 then (a.toNat * 2 ^ b.toNat) % 2 ^ 32 else 0) := by
  unfold fShl
  split
  · rw [← Nat.shiftLeft_eq, ← BitVec.toNat_shiftLeft, BitVec.ofNat_toNat, BitVec.setWidth_eq]
  · rfl

theorem fShr_eq_ofNat (a b : Word) :
    fShr a b = BitVec.ofNat 32 (if b.toNat ≤ 31 then a.toNat / 2 ^ b.toNat else 0) := by
  unfold fShr
  split
  · rw [← Nat.shiftRight_eq_div_pow, ← BitVec.toNat_ushiftRight, BitVec.ofNat_toNat, BitVec.setWidth_eq]
  · rfl

/-! ## The stack after one opcode -/

/-- An opcode that is a function of two words on stacks of two or more, and leaves the others, is a binary operator. -/
theorem binaryStack_eq_of_cases {f : Word → Word → Word} {effect : List Word → List Word}
    (hnil : effect [] = []) (hone : ∀ b, effect [b] = [b]) (htwo : ∀ b a rest, effect (b :: a :: rest) = f a b :: rest) :
    ∀ stack, binaryStack f stack = effect stack
  | [] => hnil.symm
  | [b] => (hone b).symm
  | b :: a :: rest => (htwo b a rest).symm

/-- The model's opcodes leave the stack that the integer description of R92 to R113 gives. -/
theorem opcodeEffect_stack (cap : Nat) (i : Instr) (r : Run) :
    (opcodeEffect cap i r).stack = stackEffect cap r.t32 r.u32 i r.stack := by
  have hbinary {f : Word → Word → Word} {j : Instr}
      (hnil : stackEffect cap r.t32 r.u32 j [] = []) (hone : ∀ b, stackEffect cap r.t32 r.u32 j [b] = [b])
      (htwo : ∀ b a rest, stackEffect cap r.t32 r.u32 j (b :: a :: rest) = f a b :: rest) :
      (r.binary f).advance.stack = stackEffect cap r.t32 r.u32 j r.stack := by
    rw [Run.advance_stack, Run.binary_stack, binaryStack_eq_of_cases hnil hone htwo]
  cases i with
  | lit n => rw [opcodeEffect, Run.advance_stack, Run.push_stack, literalValue_eq_ofNat]; rfl
  | t | u => rw [opcodeEffect, Run.advance_stack, Run.push_stack]; rfl
  | and => exact hbinary rfl (fun _ => rfl) fun b a rest => congrArg (· :: rest) (fAnd_eq_ofNat a b).symm
  | or => exact hbinary rfl (fun _ => rfl) fun b a rest => congrArg (· :: rest) (fOr_eq_ofNat a b).symm
  | xor => exact hbinary rfl (fun _ => rfl) fun b a rest => congrArg (· :: rest) (fXor_eq_ofNat a b).symm
  | add => exact hbinary rfl (fun _ => rfl) fun b a rest => congrArg (· :: rest) (fAdd_eq_ofNat a b).symm
  | sub => exact hbinary rfl (fun _ => rfl) fun b a rest => congrArg (· :: rest) (fSub_eq_ofNat a b).symm
  | mul => exact hbinary rfl (fun _ => rfl) fun b a rest => congrArg (· :: rest) (fMul_eq_ofNat a b).symm
  | div => exact hbinary rfl (fun _ => rfl) fun b a rest => congrArg (· :: rest) (fDiv_eq_ofNat a b).symm
  | mod => exact hbinary rfl (fun _ => rfl) fun b a rest => congrArg (· :: rest) (fMod_eq_ofNat a b).symm
  | shl => exact hbinary rfl (fun _ => rfl) fun b a rest => congrArg (· :: rest) (fShl_eq_ofNat a b).symm
  | shr => exact hbinary rfl (fun _ => rfl) fun b a rest => congrArg (· :: rest) (fShr_eq_ofNat a b).symm
  | swp =>
    rw [opcodeEffect, Run.advance_stack, Run.swap_stack]
    match r.stack with
    | [] | [_] | _ :: _ :: _ => rfl
  | dup =>
    rw [opcodeEffect, Run.advance_stack, Run.duplicate_stack]
    match r.stack with
    | [] | _ :: _ => rfl
  | endOp | undef1F | undef20 | undef40 | undef80 => rfl

/-! ## The opcodes a run executes -/

/-- The opcodes a run executes of those that remain to it: up to the first `END`, which is executed too (R85). -/
def executed : List Instr → List Instr
  | [] => []
  | i :: rest => if i = .endOp then [.endOp] else i :: executed rest

@[simp] theorem executed_endOp (rest : List Instr) : executed (.endOp :: rest) = [.endOp] := by simp [executed]
theorem executed_cons {i : Instr} (hi : i ≠ .endOp) (rest : List Instr) : executed (i :: rest) = i :: executed rest := by
  simp [executed, hi]

theorem executed_length_le (is : List Instr) : (executed is).length ≤ is.length := by
  induction is with
  | nil => exact le_rfl
  | cons i rest ih =>
    by_cases hi : i = .endOp
    · simp [hi]
    · simpa [executed_cons hi] using ih

section

variable {cap : Nat} {t32 u32 : Word}

@[simp] theorem finalStack_endOp (rest : List Instr) (stack : List Word) :
    finalStack cap t32 u32 (.endOp :: rest) stack = stack := by simp [finalStack]
theorem finalStack_cons {i : Instr} (hi : i ≠ .endOp) (rest : List Instr) (stack : List Word) :
    finalStack cap t32 u32 (i :: rest) stack = finalStack cap t32 u32 rest (stackEffect cap t32 u32 i stack) := by
  simp [finalStack, hi]

/-- The opcodes after the first `END` have no effect (R88). -/
theorem finalStack_executed (is : List Instr) (stack : List Word) :
    finalStack cap t32 u32 (executed is) stack = finalStack cap t32 u32 is stack := by
  induction is generalizing stack with
  | nil => rfl
  | cons i rest ih =>
    by_cases hi : i = .endOp
    · simp [hi]
    · rw [executed_cons hi, finalStack_cons hi, finalStack_cons hi, ih]

end

/-- Two programs that agree up to the first `END` make a run execute the same opcodes (R88). -/
theorem executed_congr {n : Nat} {f g : Nat → Instr}
    (hagree : ∀ a, a < n → (∀ b, b < a → f b ≠ .endOp) → f a = g a) :
    executed ((List.range n).map f) = executed ((List.range n).map g) := by
  induction n generalizing f g with
  | zero => rfl
  | succ n ih =>
    have hfirst : f 0 = g 0 := hagree 0 n.succ_pos fun _ hb => absurd hb (Nat.not_lt_zero _)
    simp only [List.range_succ_eq_map, List.map_cons, List.map_map]
    by_cases hend : f 0 = .endOp
    · rw [← hfirst, hend, executed_endOp, executed_endOp]
    · rw [executed_cons hend, executed_cons (hfirst ▸ hend), ← hfirst]
      refine congrArg _ (ih fun a ha hbefore => hagree (a + 1) (Nat.succ_lt_succ ha) fun b hb => ?_)
      cases b with
      | zero => exact hend
      | succ b => exact hbefore b (Nat.lt_of_succ_lt_succ hb)

/-! ## The run as one function -/

/-- The instructions that `k` bytes of `PROG` from offset `a` on decode to. -/
def State.opcodesFrom (s : State) (a k : Nat) : List Instr := (List.range' a k).map s.opcodeAt

theorem opcodesFrom_succ (s : State) (a k : Nat) :
    s.opcodesFrom a (k + 1) = s.opcodeAt a :: s.opcodesFrom (a + 1) k := rfl
@[simp] theorem opcodesFrom_length (s : State) (a k : Nat) : (s.opcodesFrom a k).length = k := by
  simp [State.opcodesFrom]

/-- The program of a run, decoded (R14). -/
theorem opcodesFrom_start (s : State) (plen : BitVec 11) :
    s.opcodesFrom 0 plen.toNat = (s.program plen).map (decodeWith s.cfg.enc) := by
  simp [State.opcodesFrom, State.program, State.opcodeAt, List.range_eq_range', Function.comp_def]

theorem runSteps_stop {s : State} {r : Run} (hr : s.run = some r) (hstop : r.stopped = true ∨ r.pc = r.plen) :
    runSteps 1 s = .next { s with run := none, replies := .result (topByte r.stack) :: s.replies } := by
  rw [runSteps_succ (step_stop hr ((atStop_iff r).2 hstop)), Run.result_eq_topByte]
  rfl

/-- A live run with `k` opcodes left before its bound executes them up to the first `END`, and its one further step returns
the low byte of the stack they leave (R82, R85, R86). -/
theorem runSteps_run {s : State} {r : Run} {k : Nat} (hr : s.run = some r) (hlive : r.stopped = false)
    (hleft : r.plen.toNat = r.pc.toNat + k) (hbound : r.plen.toNat ≤ maxProgramLen) :
    runSteps ((executed (s.opcodesFrom r.pc.toNat k)).length + 1) s =
      .next { s with
        run := none
        replies := .result (topByte
          (finalStack s.cfg.stackCap r.t32 r.u32 (s.opcodesFrom r.pc.toNat k) r.stack)) :: s.replies } := by
  induction k generalizing s r with
  | zero => exact runSteps_stop hr (.inr (BitVec.eq_of_toNat_eq hleft.symm))
  | succ k ih =>
    have hpc : r.pc ≠ r.plen := fun h => by rw [h] at hleft; omega
    have hstep := step_live hr hlive hpc (by omega)
    rw [opcodesFrom_succ]
    by_cases hi : s.opcodeAt r.pc.toNat = .endOp
    · rw [hi, opcodeEffect_endOp] at hstep
      rw [hi, executed_endOp, finalStack_endOp]
      exact (runSteps_succ hstep).trans (runSteps_stop (r := r.halt) rfl (.inl rfl))
    · have hnext : (r.pc + 1).toNat = r.pc.toNat + 1 := by
        have hlt : r.pc.toNat + 1 < 2 ^ 11 := by have := r.plen.isLt; omega
        exact BitVec.toNat_add_of_lt hlt
      rw [executed_cons hi, finalStack_cons hi, List.length_cons, runSteps_succ hstep, ← opcodeEffect_stack, ← hnext,
        ← opcodeEffect_pc s.cfg.stackCap hi]
      have hrest := ih (s := { s with run := some (opcodeEffect s.cfg.stackCap (s.opcodeAt r.pc.toNat) r) }) rfl
        (by rw [opcodeEffect_stopped _ hi, hlive])
        (by rw [opcodeEffect_plen, opcodeEffect_pc _ hi, hnext, hleft]; omega)
        (by rw [opcodeEffect_plen]; exact hbound)
      rwa [opcodeEffect_t32, opcodeEffect_u32] at hrest

/-- Settles O9: a stopped run returns at once, and a live one executes at most the opcodes before its bound. -/
theorem runEndsWithinItsBound : Obligations.RunEndsWithinItsBound := by
  unfold Obligations.RunEndsWithinItsBound
  intro s r hinv hr
  obtain ⟨hpc, hplen, -⟩ := hinv.runBounded r hr
  cases hstopped : r.stopped with
  | true => exact ⟨1, _, _, Nat.le_add_left 1 _, runSteps_stop hr (.inl hstopped), rfl⟩
  | false =>
    refine ⟨_, _, _, ?_, runSteps_run hr hstopped (Nat.add_sub_of_le hpc).symm hplen, rfl⟩
    exact Nat.succ_le_succ ((executed_length_le _).trans_eq (opcodesFrom_length ..))

/-! ## The whole evaluate -/

theorem latchTime_eq_ofNat (t : BitVec 64) : latchTime t = BitVec.ofNat 32 t.toNat :=
  (BitVec.ofNat_toNat 32 t).symm

theorem startRun_bounded (s : State) {plen : BitVec 11} (h : plen.toNat ≤ maxProgramLen) (t u : BitVec 64) :
    s.startRun plen t u = .next { s with run := some (vmReset plen t u) } := by
  rw [State.startRun, if_pos h]

/-- `evaluate` reads the opcodes up to the first `END` alone (R86, R88). -/
theorem evaluateSpec_eq_executed (cfg : Config) (program : List Byte) (t u : BitVec 64) :
    evaluateSpec cfg program t u = topByte (finalStack cfg.stackCap (BitVec.ofNat 32 t.toNat) (BitVec.ofNat 32 u.toNat)
      (executed (program.map (decodeWith cfg.enc))) []) := by
  rw [finalStack_executed]
  rfl

/-- An awaited `evaluate` takes one step to start, one for each opcode it executes and one to return the value of the
one-function description (R79 to R86). -/
theorem runSteps_evaluate {s : State} {plen : BitVec 11} {t u : BitVec 64} {rest : List (Context × Event)}
    (hawaits : s.awaits (.evaluate plen t u) rest) (hbound : plen.toNat ≤ maxProgramLen) :
    runSteps ((executed ((s.program plen).map (decodeWith s.cfg.enc))).length + 2) s =
      .next { s with pending := rest
                     replies := .result (evaluateSpec s.cfg (s.program plen) t u) :: s.replies } := by
  have hstart : step s = .next { s with pending := rest, run := some (vmReset plen t u) } :=
    (step_awaits hawaits).trans (startRun_bounded _ hbound t u)
  have hrun := runSteps_run (s := { s with pending := rest, run := some (vmReset plen t u) }) (k := plen.toNat) rfl rfl
    (Nat.zero_add _).symm hbound
  obtain ⟨hidle, -, -⟩ := hawaits
  rw [runSteps_succ hstart, evaluateSpec_eq_executed, finalStack_executed, ← opcodesFrom_start,
    ← latchTime_eq_ofNat, ← latchTime_eq_ofNat]
  refine hrun.trans ?_
  rw [← hidle]
  rfl

/-- Settles O10: the start, at most `PLEN` opcodes, and the stop. -/
theorem evaluateRefinesItsFunction : Obligations.EvaluateRefinesItsFunction := by
  unfold Obligations.EvaluateRefinesItsFunction
  intro s plen t u rest _ hawaits hbound
  refine ⟨_, Nat.add_le_add_right ?_ 2, runSteps_evaluate hawaits hbound⟩
  refine (executed_length_le _).trans_eq ?_
  rw [← opcodesFrom_start, opcodesFrom_length]

/-- Settles O11: the number of steps and the byte are functions of the opcodes executed, the capacity and the low halves of
the time arguments, on which the two machines agree. -/
theorem evaluateReadsNothingElse : Obligations.EvaluateReadsNothingElse := by
  unfold Obligations.EvaluateReadsNothingElse
  intro s₁ s₂ plen t₁ u₁ t₂ u₂ rest₁ rest₂ h₁ h₂ hbound hcap henc hprog ht hu
  have hexecuted : executed ((s₁.program plen).map (decodeWith s₁.cfg.enc)) =
      executed ((s₂.program plen).map (decodeWith s₂.cfg.enc)) := by
    simp only [State.program, List.map_map]
    refine executed_congr fun a ha hbefore => ?_
    simp only [Function.comp_apply, ← henc, hprog a ha hbefore]
  have hlow {v w : BitVec 64} (h : v.toNat % 2 ^ 32 = w.toNat % 2 ^ 32) :
      BitVec.ofNat 32 v.toNat = BitVec.ofNat 32 w.toNat := BitVec.eq_of_toNat_eq h
  have hvalue : evaluateSpec s₁.cfg (s₁.program plen) t₁ u₁ = evaluateSpec s₂.cfg (s₂.program plen) t₂ u₂ := by
    rw [evaluateSpec_eq_executed, evaluateSpec_eq_executed, hexecuted, hcap, hlow ht, hlow hu]
  refine ⟨_, _, runSteps_evaluate h₁ hbound, ?_⟩
  rw [hexecuted, hvalue]
  exact runSteps_evaluate h₂ hbound

end Sys2Proof.Machine

/-! PROOFS. The binary operators on two or more entries: their common next state, and the bits of the three bitwise results. -/

namespace Sys2Proof.Machine

/-! ## The frame of a binary operator -/

/-- On two or more entries a binary operator leaves its value over the entries below, and `pc` moves by one (R95, R83). -/
theorem Run.binary_advance_cons (f : Word → Word → Word) {r : Run} {a b : Word} {below : List Word}
    (hs : r.stack = b :: a :: below) :
    (r.binary f).advance = { r with pc := r.pc + 1, stack := f a b :: below } := by
  rw [Run.binary_eq, hs]
  rfl

/-- The next state of an opcode whose effect is the binary operator `f`, on two or more entries (R95). -/
theorem exec_binary_cons {s : State} {r : Run} {i : Instr} {f : Word → Word → Word} {a b : Word} {below : List Word}
    (hr : s.run = some r) (hs : r.stack = b :: a :: below)
    (heffect : opcodeEffect s.cfg.stackCap i r = (r.binary f).advance) :
    exec i s = .next { s with run := some { r with pc := r.pc + 1, stack := f a b :: below } } := by
  rw [exec_some hr, heffect, Run.binary_advance_cons f hs]

/-! ## The bits of the bitwise operators -/

@[simp] theorem fAnd_getLsbD (a b : Word) (j : Nat) : (fAnd a b).getLsbD j = (a.getLsbD j && b.getLsbD j) :=
  BitVec.getLsbD_and

@[simp] theorem fOr_getLsbD (a b : Word) (j : Nat) : (fOr a b).getLsbD j = (a.getLsbD j || b.getLsbD j) :=
  BitVec.getLsbD_or

@[simp] theorem fXor_getLsbD (a b : Word) (j : Nat) : (fXor a b).getLsbD j = (a.getLsbD j ^^ b.getLsbD j) :=
  BitVec.getLsbD_xor

/-- Settles O13: the three opcodes share the frame of a binary operator, and each function is bitwise. -/
theorem bitwiseOperatorsCombineBits : Obligations.BitwiseOperatorsCombineBits := by
  unfold Obligations.BitwiseOperatorsCombineBits
  intro s r a b below hr hs
  refine ⟨⟨fAnd a b, ?_, fun j _ => fAnd_getLsbD a b j⟩, ⟨fOr a b, ?_, fun j _ => fOr_getLsbD a b j⟩,
    ⟨fXor a b, ?_, fun j _ => fXor_getLsbD a b j⟩⟩
  · exact exec_binary_cons hr hs rfl
  · exact exec_binary_cons hr hs rfl
  · exact exec_binary_cons hr hs rfl

end Sys2Proof.Machine

/-! PROOFS. The stack operators `SWP` and `DUP`, the stop `END`, and the bytes outside the map, which are skipped. -/

namespace Sys2Proof

/-! ## Decoding outside the map -/

/-- A map gives no opcode to a byte outside its image. -/
theorem opcodeOf_of_not_mem {enc : List Byte} {is : List Instr} {b : Byte} (h : b ∉ enc) : opcodeOf enc is b = none := by
  fun_induction opcodeOf enc is b with
  | case1 => simp at h
  | case2 e es j js b hlater ih => exact ih (List.not_mem_of_not_mem_cons h)
  | case3 => rfl

/-- Outside the image of any map, well formed or not, a byte is undefined (R72). -/
theorem decodeWith_of_not_mem {enc : List Byte} {b : Byte} (h : b ∉ enc) : decodeWith enc b = undefinedOf b := by
  rw [decodeWith, opcodeOf_of_not_mem h]

/-- A byte outside the map decodes to the undefined byte that it is (R72). -/
theorem undefinedByte_decodeWith_of_not_mem {enc : List Byte} {b : Byte} (h : b ∉ enc) :
    (decodeWith enc b).undefinedByte = some b := by
  rw [decodeWith_of_not_mem h, undefinedByte_undefinedOf]

end Sys2Proof

namespace Sys2Proof.Machine

/-! ## The undefined bytes -/

section

variable {i : Instr} {b : Byte} (hundef : i.undefinedByte = some b)
include hundef

/-- Each of the four rows of undefined bytes only moves `pc` (R113). -/
theorem opcodeEffect_of_undefinedByte (cap : Nat) (r : Run) : opcodeEffect cap i r = r.advance := by
  cases i with
  | undef1F | undef20 | undef40 | undef80 => rfl
  | _ => cases hundef

theorem exec_of_undefinedByte {s : State} {r : Run} (hr : s.run = some r) :
    exec i s = .next { s with run := some r.advance } := by
  rw [exec_some hr, opcodeEffect_of_undefinedByte hundef]

theorem stackEffect_of_undefinedByte (cap : Nat) (t32 u32 : Word) (stack : List Word) :
    stackEffect cap t32 u32 i stack = stack := by
  cases i with
  | undef1F | undef20 | undef40 | undef80 => rfl
  | _ => cases hundef

theorem ne_endOp_of_undefinedByte : i ≠ .endOp := by
  rintro rfl
  cases hundef

end

/-- A program of undefined bytes leaves the stack as it was (R113). -/
theorem finalStack_of_undefinedBytes (cap : Nat) (t32 u32 : Word) {is : List Instr}
    (hundef : ∀ i ∈ is, ∃ b, i.undefinedByte = some b) (stack : List Word) : finalStack cap t32 u32 is stack = stack := by
  induction is with
  | nil => rfl
  | cons i rest ih =>
    obtain ⟨b, hb⟩ := hundef i List.mem_cons_self
    rw [finalStack_cons (ne_endOp_of_undefinedByte hb), stackEffect_of_undefinedByte hb]
    exact ih fun j hj => hundef j (.tail _ hj)

/-- Settles O21: the four rows and every byte outside the map are undefined bytes, which leave the stack as it was; the
result of a program of them is read from the empty stack it starts with (R86). -/
theorem undefinedBytesAreSkipped : Obligations.UndefinedBytesAreSkipped := by
  unfold Obligations.UndefinedBytesAreSkipped
  refine ⟨?_, ?_, ?_⟩
  · intro s r x y z i hr hi
    have hundef : ∃ b, i.undefinedByte = some b := by
      simp only [List.mem_cons, List.not_mem_nil, or_false] at hi
      rcases hi with rfl | rfl | rfl | rfl <;> exact ⟨_, rfl⟩
    obtain ⟨b, hb⟩ := hundef
    exact exec_of_undefinedByte hb hr
  · intro s r hr hlive hbound hpc hout
    rw [stepRunsTheDecodedInstruction s r hr hlive hbound hpc]
    exact exec_of_undefinedByte (undefinedByte_decodeWith_of_not_mem hout) hr
  · intro cfg program t u hout
    have hundef : ∀ i ∈ program.map (decodeWith cfg.enc), ∃ b, i.undefinedByte = some b :=
      List.forall_mem_map.2 fun b hb => ⟨b, undefinedByte_decodeWith_of_not_mem (hout b hb)⟩
    rw [evaluateSpec, finalStack_of_undefinedBytes _ _ _ hundef]

/-! ## `SWP` -/

theorem swappedStack_of_length_lt_two {stack : List Word} (h : stack.length < 2) : swappedStack stack = stack := by
  match stack with
  | [] | [_] => rfl
  | _ :: _ :: _ => simp at h

/-- Two exchanges restore every stack (R110). -/
@[simp] theorem swappedStack_swappedStack (stack : List Word) : swappedStack (swappedStack stack) = stack := by
  match stack with
  | [] | [_] | _ :: _ :: _ => rfl

/-- `SWP` on the whole run (R110, R83). -/
theorem opcodeEffect_swp (cap : Nat) (r : Run) :
    opcodeEffect cap .swp r = { r with pc := r.pc + 1, stack := swappedStack r.stack } :=
  congrArg Run.advance r.swap_eq

theorem exec_swp {s : State} {r : Run} (hr : s.run = some r) :
    exec .swp s = .next { s with run := some { r with pc := r.pc + 1, stack := swappedStack r.stack } } := by
  rw [exec_some hr, opcodeEffect_swp]

/-- Settles O18: `SWP` leaves the swapped stack, and swapping is its own inverse. -/
theorem swapExchangesTheTopTwo : Obligations.SwapExchangesTheTopTwo := by
  unfold Obligations.SwapExchangesTheTopTwo
  intro s r hr
  refine ⟨?_, ?_, _, exec_swp hr, ?_⟩
  · intro x y below hs
    rw [exec_swp hr, hs]
    rfl
  · intro hshort
    rw [exec_swp hr, swappedStack_of_length_lt_two hshort]
  · rw [exec_swp rfl, swappedStack_swappedStack]

/-! ## `DUP` -/

theorem duplicatedStack_of_lt {cap : Nat} {x : Word} {below : List Word} (h : (x :: below).length < cap) :
    duplicatedStack cap (x :: below) = x :: x :: below :=
  if_pos h

theorem duplicatedStack_of_le {cap : Nat} {stack : List Word} (h : cap ≤ stack.length) :
    duplicatedStack cap stack = stack := by
  cases stack with
  | nil => rfl
  | cons x below => exact if_neg (Nat.not_lt.2 h)

/-- `DUP` on the whole run (R111, R83). -/
theorem opcodeEffect_dup (cap : Nat) (r : Run) :
    opcodeEffect cap .dup r = { r with pc := r.pc + 1, stack := duplicatedStack cap r.stack } :=
  congrArg Run.advance (r.duplicate_eq cap)

theorem exec_dup {s : State} {r : Run} (hr : s.run = some r) :
    exec .dup s = .next { s with
      run := some { r with pc := r.pc + 1, stack := duplicatedStack s.cfg.stackCap r.stack } } := by
  rw [exec_some hr, opcodeEffect_dup]

/-- Settles O19: `DUP` leaves the duplicated stack, which is the stack itself at capacity and when there is no top. -/
theorem duplicatePushesTheTop : Obligations.DuplicatePushesTheTop := by
  unfold Obligations.DuplicatePushesTheTop
  intro s r hr
  refine ⟨?_, ?_⟩
  · intro x below hs hroom
    rw [hs] at hroom
    rw [exec_dup hr, hs, duplicatedStack_of_lt hroom]
  · intro hkept
    have hstack : duplicatedStack s.cfg.stackCap r.stack = r.stack := by
      rcases hkept with hfull | hempty
      · exact duplicatedStack_of_le hfull
      · rw [hempty, duplicatedStack]
    rw [exec_dup hr, hstack]

/-! ## `END` -/

theorem exec_endOp {s : State} {r : Run} (hr : s.run = some r) :
    exec .endOp s = .next { s with run := some r.halt } := by
  rw [exec_some hr, opcodeEffect_endOp]

/-- Settles O20: `END` halts the run, and the step of a halted run is its stop, which reads no byte of `PROG`. -/
theorem endStopsTheRunInPlace : Obligations.EndStopsTheRunInPlace := by
  unfold Obligations.EndStopsTheRunInPlace
  intro s r hr
  refine ⟨exec_endOp hr, fun s₁ prog h => ?_⟩
  obtain rfl : { s with run := some r.halt } = s₁ := by simpa [exec_endOp hr] using h
  obtain ⟨v, hstep, htop, hempty⟩ :=
    stoppedRunReturnsLowByteOfTop { s with run := some r.halt, prog := prog } r.halt rfl (.inl r.halt_stopped)
  exact ⟨v, hstep, hempty, htop⟩

end Sys2Proof.Machine

/-! PROOFS. The debouncer: each release counter over one poll and over a list of polls, and the claims about its events. -/

namespace Sys2Proof.Machine

/-! ## The release counters -/

/-- One poll of the buttons on integers: counter `i` by its own line alone (R128, R134). -/
theorem poll_cnt_toNat (d : Debouncer) (raw : BitVec 7) (i : Fin 7) :
    (d.poll raw).cnt[i].toNat = if raw.getLsbD i then d.cycles.toNat else d.cnt[i].toNat - 1 := by
  rw [poll_cnt, countPoll_toNat]

/-- A pressed poll loads the hold value (R128). -/
theorem poll_cnt_of_pressed (d : Debouncer) {raw : BitVec 7} {i : Fin 7} (h : raw.getLsbD i = true) :
    (d.poll raw).cnt[i] = d.cycles := by
  rw [poll_cnt, h, countPoll, if_pos rfl]

/-- Polls in which line `i` is released count counter `i` down by one each, and not below 0 (R128). -/
theorem pollAll_cnt_of_released {released : List (BitVec 7)} {i : Fin 7}
    (h : ∀ raw ∈ released, raw.getLsbD i = false) (d : Debouncer) :
    (d.pollAll released).cnt[i].toNat = d.cnt[i].toNat - released.length := by
  induction released generalizing d with
  | nil => rfl
  | cons raw rest ih =>
    obtain ⟨hraw, hrest⟩ := List.forall_mem_cons.mp h
    calc ((d.poll raw).pollAll rest).cnt[i].toNat
        = (d.poll raw).cnt[i].toNat - rest.length := ih hrest _
      _ = d.cnt[i].toNat - 1 - rest.length := by rw [poll_cnt_toNat, hraw, if_neg Bool.false_ne_true]
      _ = d.cnt[i].toNat - (raw :: rest).length := by rw [List.length_cons]; omega

/-! ## The obligations -/

/-- Settles O47: the pressed poll loads the counter, and each released poll takes one from it. -/
theorem releaseIsHeldForTheCycles : Obligations.ReleaseIsHeldForTheCycles := by
  unfold Obligations.ReleaseIsHeldForTheCycles
  intro d press released i hpress hreleased
  rw [pollAll_cnt_of_released hreleased, poll_cnt_of_pressed d hpress]

/-- Settles O44: the awaited poll is `Debouncer.poll`, which writes the counters alone. -/
theorem buttonPollUpdatesEachCounter : Obligations.ButtonPollUpdatesEachCounter := by
  unfold Obligations.ButtonPollUpdatesEachCounter
  intro s raw rest hawaits
  exact ⟨(s.deb.poll raw).cnt, step_awaits hawaits, poll_cnt_toNat s.deb raw⟩

/-- Settles O46: the awaited event is `Debouncer.setCycles`, and a `button_poll` issued next loads the value written. -/
theorem setDebounceWritesOnlyTheCycles : Obligations.SetDebounceWritesOnlyTheCycles := by
  unfold Obligations.SetDebounceWritesOnlyTheCycles
  intro s v rest hawaits
  refine ⟨_, step_awaits hawaits, rfl, fun raw more hmore => ?_⟩
  obtain ⟨hrun, hdone, -⟩ := hawaits
  exact ⟨_, step_awaits (e := .buttonPoll raw) ⟨hrun, hdone, hmore⟩,
    fun i hpressed => poll_cnt_of_pressed (s.deb.setCycles v) hpressed⟩

end Sys2Proof.Machine

/-! PROOFS. What a step can answer under the invariant, what each context may write, and the idle machine. -/

namespace Sys2Proof.Machine

/-! ## Faults -/

/-- A `fillSample` is refused for its slot, or its loop reads readable slots only (R66, R148). -/
theorem fillSample_ne_fault {s : State} (h : s.slotsReadable) (k : BitVec 8) (f : Fault) : s.fillSample k ≠ .fault f := by
  obtain ⟨x, hloop⟩ := fillLoop_ok h k s.cfg.bufferSize 0 false
  rw [State.fillSample, hloop]
  split <;> nofun

/-- With readable slots no event faults: only `fillSample` reads an address that can lie outside its memory (R147, R148). -/
theorem perform_ne_fault {s : State} (h : s.slotsReadable) (e : Event) (f : Fault) : s.perform e ≠ .fault f := by
  cases e with
  | fillSample k => exact fillSample_ne_fault h k f
  | evaluate =>
    rw [State.perform, State.startRun]
    split <;> nofun
  | writeSlot | writeClip =>
    simp only [State.perform, State.writeSlot, State.writeClip]
    split
    · nofun
    · split <;> nofun
  | reset =>
    rw [State.perform, State.powerOnReset]
    split <;> nofun
  | buttonPoll | readButtons | setDebounce | encoderPoll | readEncoderDelta | writeProg => nofun

/-- An issued event is refused for a broken duty, or it is performed. -/
theorem issue_ne_fault {s : State} (h : s.slotsReadable) (c : Context) (e : Event) (f : Fault) :
    s.issue c e ≠ .fault f := by
  rw [State.issue]
  split
  · nofun
  · split
    · exact perform_ne_fault h e f
    · nofun

/-- A step between runs does not fault: nothing is pending, or the oldest event is issued. -/
theorem step_ne_fault_of_idle {s : State} (hslots : s.slotsReadable) (hr : s.run = none) (f : Fault) :
    step s ≠ .fault f := by
  cases hp : s.pending with
  | nil =>
    rw [step_idle hr hp]
    nofun
  | cons head rest =>
    rw [step_event hr hp]
    exact issue_ne_fault (s := { s with pending := rest }) hslots head.1 head.2 f

/-- Inside its bounds a run that has not stopped fetches inside `PROG` (R20, R23, R64). -/
theorem pc_lt_maxProgramLen {s : State} {r : Run} (hbounded : s.runBounded) (hr : s.run = some r)
    (hgoes : r.atStop = false) : r.pc.toNat < maxProgramLen := by
  obtain ⟨hpc, hplen, -⟩ := hbounded r hr
  have hne : r.pc ≠ r.plen := fun h => by simp [(atStop_iff r).2 (.inr h)] at hgoes
  exact (lt_of_le_of_ne hpc (mt BitVec.eq_of_toNat_eq hne)).trans_le hplen

/-- Inside its bounds a run answers a next state: its stop, or one opcode (R82, R85, R147). -/
theorem step_next_of_run {s : State} {r : Run} (hbounded : s.runBounded) (hr : s.run = some r) :
    ∃ s', step s = .next s' := by
  cases hs : r.atStop with
  | true => exact ⟨_, step_stop hr hs⟩
  | false =>
    rw [step_opcode hr hs (fetch_inside (pc_lt_maxProgramLen hbounded hr hs)), exec_some hr]
    exact ⟨_, rfl⟩

/-- Settles O26: a run in its bounds answers a next state, and between runs the readable slots exclude a fault. -/
theorem nothingFaultsUnderTheInvariant : Obligations.NothingFaultsUnderTheInvariant := by
  unfold Obligations.NothingFaultsUnderTheInvariant
  intro s hinv
  cases hr : s.run with
  | none => exact ⟨step_ne_fault_of_idle hinv.slotsReadable hr, fun h => absurd rfl h⟩
  | some r =>
    obtain ⟨s', hnext⟩ := step_next_of_run hinv.runBounded hr
    exact ⟨fun f => by rw [hnext]; nofun, fun _ => ⟨s', hnext⟩⟩

/-! ## Ownership -/

/-- Between runs, a step with an event pending is the effect of that event, issued by its owner (R156). -/
theorem step_pending_effect {s s' : State} {c : Context} {e : Event} {rest : List (Context × Event)}
    (hr : s.run = none) (hp : s.pending = (c, e) :: rest) (h : step s = .next s') :
    c = e.owner ∧ EventEffect { s with pending := rest } e s' := by
  rw [step_event hr hp] at h
  obtain ⟨-, hc, hperf⟩ := issue_next h
  exact ⟨hc, perform_effect hperf⟩

section

variable {s s' : State} {e : Event}

/-- The foreground context writes the decoder and the replies only (R156, R158). -/
theorem EventEffect.foreground_frame (h : EventEffect s e s') (howner : e.owner = .foreground) :
    s' = { s with dec := s'.dec, replies := s'.replies } := by
  cases h with
  | encoderPoll => rfl
  | _ => cases howner

/-- The producer context writes no register of the decoder but `delta` (R158, decision D26). -/
theorem EventEffect.producer_keeps_histories (h : EventEffect s e s') (howner : e.owner = .producer) :
    s'.dec = { s.dec with delta := s'.dec.delta } := by
  cases h with
  | encoderPoll | writeSlot | writeClip | reset => cases howner
  | _ => rfl

/-- The producer context writes the decoder by a read alone (R142, R158, decision D26). -/
theorem EventEffect.producer_keeps_decoder (h : EventEffect s e s') (howner : e.owner = .producer)
    (hread : e ≠ .readEncoderDelta) : s'.dec = s.dec := by
  cases h with
  | readEncoderDelta => exact absurd rfl hread
  | encoderPoll | writeSlot | writeClip | reset => cases howner
  | _ => rfl

end

/-- Settles O34: the step is the effect of an event of the issuing context, and each context's events keep what it does not
own. -/
theorem contextsOwnTheirState : Obligations.ContextsOwnTheirState := by
  unfold Obligations.ContextsOwnTheirState
  intro s s' c e rest hr _ hp h
  obtain ⟨rfl, heffect⟩ := step_pending_effect hr hp h
  exact ⟨heffect.foreground_frame, fun howner =>
    ⟨heffect.producer_keeps_histories howner, heffect.producer_keeps_decoder howner⟩⟩

/-! ## The idle machine -/

/-- Settles O30: with nothing to take, the step is the idle one. -/
theorem idleMachineHoldsItsState : Obligations.IdleMachineHoldsItsState := by
  unfold Obligations.IdleMachineHoldsItsState
  exact fun _ => step_idle

end Sys2Proof.Machine

/-! PROOFS. The byte of an instruction: an opcode's byte under an injective map decodes to that opcode, and an undefined byte to
the row that carries its bits. -/

namespace Sys2Proof

/-! ## Undefined bytes -/

/-- In each of the four rows the byte shows which row it is and the bits it carries (R72, log 3). -/
theorem undefinedOf_append :
    (∀ x : BitVec 5, undefinedOf (0#3 ++ x) = .undef1F x) ∧ (∀ x : BitVec 5, undefinedOf (1#3 ++ x) = .undef20 x) ∧
    (∀ x : BitVec 6, undefinedOf (1#2 ++ x) = .undef40 x) ∧ (∀ x : BitVec 7, undefinedOf (1#1 ++ x) = .undef80 x) := by
  decide

/-- The byte of an undefined-byte instruction gives the instruction back (R72). -/
theorem undefinedOf_of_undefinedByte {i : Instr} {b : Byte} (h : i.undefinedByte = some b) : undefinedOf b = i := by
  obtain ⟨h1F, h20, h40, h80⟩ := undefinedOf_append
  cases i with
  | undef1F x => cases h; exact h1F x
  | undef20 x => cases h; exact h20 x
  | undef40 x => cases h; exact h40 x
  | undef80 x => cases h; exact h80 x
  | _ => cases h

/-! ## The opcodes -/

/-- Every instruction without a byte of its own is one of the 31 opcodes (R3). -/
theorem mem_opcodes_of_undefinedByte {i : Instr} (h : i.undefinedByte = none) : i ∈ opcodes := by
  cases i with
  | lit n =>
    have hall : ∀ n : BitVec 4, Instr.lit n ∈ opcodes := by decide
    exact hall n
  | undef1F | undef20 | undef40 | undef80 => cases h
  | _ => decide

/-! ## A map as a list of pairs -/

section

variable {enc : List Byte} {is : List Instr} {b : Byte} {i : Instr}

/-- A map gives an opcode only bytes of its list. -/
theorem mem_of_byteOf (h : byteOf enc is i = some b) : b ∈ enc := by
  fun_induction byteOf enc is i with
  | case1 => simp_all
  | case2 e es j js i hlater ih => exact .tail _ (ih h)
  | case3 => simp at h

/-- A map of at least as many bytes as there are opcodes gives each of them a byte. -/
theorem exists_byteOf (hlen : is.length ≤ enc.length) (hmem : i ∈ is) : ∃ b, byteOf enc is i = some b := by
  fun_induction byteOf enc is i with
  | case1 e => exact ⟨e, rfl⟩
  | case2 e es j js i hlater ih =>
    exact ih (by simpa using hlen) ((List.mem_cons.1 hmem).resolve_left (Ne.symm hlater))
  | case3 enc is i hshort =>
    match enc, is with
    | _, [] => simp at hmem
    | [], j :: js => simp at hlen
    | e :: es, j :: js => exact (hshort e es j js rfl rfl).elim

/-- The byte a map gives an opcode has that opcode, because no byte stands twice in the map. -/
theorem opcodeOf_of_byteOf (hdistinct : enc.Nodup) (h : byteOf enc is i = some b) : opcodeOf enc is b = some i := by
  fun_induction byteOf enc is i with
  | case1 => simp_all [opcodeOf]
  | case2 e es j js i hlater ih =>
    obtain ⟨he, hes⟩ := List.nodup_cons.1 hdistinct
    have hne : e ≠ b := fun heb => he (heb ▸ mem_of_byteOf h)
    rw [opcodeOf, if_neg hne]
    exact ih hes h
  | case3 => simp at h

end

theorem nodup_of_encWf {enc : List Byte} (hmap : encWf enc = true) : enc.Nodup := by
  simp only [encWf, Bool.and_eq_true, decide_eq_true_eq] at hmap
  exact hmap.2

/-- Settles O3: a well-formed undefined byte is outside the map and stands for itself, and an opcode has one byte, which has
that opcode. -/
theorem decodeInvertsEncode : Obligations.DecodeInvertsEncode := by
  unfold Obligations.DecodeInvertsEncode
  intro enc hmap i hwf
  cases hundef : i.undefinedByte with
  | some b =>
    have hout : b ∉ enc := by simpa [Instr.wfFor, hundef] using hwf
    exact ⟨b, by simp [encodeWith, hundef],
      (decodeWith_of_not_mem hout).trans (undefinedOf_of_undefinedByte hundef)⟩
  | none =>
    obtain ⟨b, hb⟩ := exists_byteOf (length_of_encWf hmap).ge (mem_opcodes_of_undefinedByte hundef)
    exact ⟨b, by simp [encodeWith, hundef, hb],
      by simp [decodeWith, opcodeOf_of_byteOf (nodup_of_encWf hmap) hb]⟩

/-- Settles O1: the listed bytes are closed terms, decoded by evaluation. -/
theorem listedBytesDecodeToTheirInstructions : Obligations.ListedBytesDecodeToTheirInstructions := by
  unfold Obligations.ListedBytesDecodeToTheirInstructions
  decide

end Sys2Proof

/-! PROOFS. The VM: the arithmetic of the binary operators, underflow, the start of an `evaluate`, and the run as one atomic
event. -/

namespace Sys2Proof.Machine

/-! ## The binary operators on two or more entries -/

/-- Settles O14: the three opcodes share the frame of a binary operator, and each function is the integer one reduced. -/
theorem arithmeticWrapsModulo32Bits : Obligations.ArithmeticWrapsModulo32Bits := by
  unfold Obligations.ArithmeticWrapsModulo32Bits
  intro s r a b below hr hs
  rw [← fAdd_eq_ofNat, ← fSub_eq_ofNat, ← fMul_eq_ofNat]
  exact ⟨exec_binary_cons hr hs rfl, exec_binary_cons hr hs rfl, exec_binary_cons hr hs rfl⟩

theorem fDiv_toNat (a b : Word) : (fDiv a b).toNat = if b.toNat = 0 then 0 else a.toNat / b.toNat := by
  rw [fDiv_eq_ofNat, BitVec.toNat_ofNat]
  split
  · rfl
  · exact Nat.mod_eq_of_lt ((Nat.div_le_self _ _).trans_lt a.isLt)

theorem fMod_toNat (a b : Word) : (fMod a b).toNat = if b.toNat = 0 then 0 else a.toNat % b.toNat := by
  rw [fMod_eq_ofNat, BitVec.toNat_ofNat]
  split
  · rfl
  · exact Nat.mod_eq_of_lt ((Nat.mod_le _ _).trans_lt a.isLt)

/-- Settles O15: the quotient and the remainder are those of the natural numbers, whose division identity is `Nat.div_add_mod'`. -/
theorem divisionIsUnsignedAndZeroByZero : Obligations.DivisionIsUnsignedAndZeroByZero := by
  unfold Obligations.DivisionIsUnsignedAndZeroByZero
  intro s r a b below hr hs
  refine ⟨fDiv a b, fMod a b, exec_binary_cons hr hs rfl, exec_binary_cons hr hs rfl, fun hzero => ?_, fun hpos => ?_⟩
  · rw [fDiv_toNat, fMod_toNat, if_pos hzero]
    exact ⟨rfl, if_pos hzero⟩
  · rw [fDiv_toNat, fMod_toNat, if_neg hpos.ne', if_neg hpos.ne']
    exact ⟨(Nat.div_add_mod' _ _).symm, Nat.mod_lt _ hpos⟩

/-- Settles O16: the two opcodes share the frame of a binary operator, and each function is the shift by the whole amount. -/
theorem shiftsUseTheWholeAmount : Obligations.ShiftsUseTheWholeAmount := by
  unfold Obligations.ShiftsUseTheWholeAmount
  intro s r a b below hr hs
  rw [← fShl_eq_ofNat, ← fShr_eq_ofNat]
  exact ⟨exec_binary_cons hr hs rfl, exec_binary_cons hr hs rfl⟩

/-! ## Underflow -/

theorem binaryStack_of_length_lt_two (f : Word → Word → Word) {stack : List Word} (h : stack.length < 2) :
    binaryStack f stack = stack := by
  match stack with
  | [] | [_] => rfl
  | _ :: _ :: _ => simp at h

/-- With fewer than two entries a binary operator only moves `pc` (R89, decision D5). -/
theorem Run.binary_advance_of_underflow (f : Word → Word → Word) {r : Run} (h : r.stack.length < 2) :
    (r.binary f).advance = { r with pc := r.pc + 1 } := by
  rw [Run.binary_eq, binaryStack_of_length_lt_two f h]
  rfl

/-- Settles O17: below two entries the binary operators and `SWP` leave the stack, and so does `DUP` on none. -/
theorem underflowOnlyAdvances : Obligations.UnderflowOnlyAdvances := by
  unfold Obligations.UnderflowOnlyAdvances
  rintro s r i hr (⟨hi, hshort⟩ | ⟨rfl, hempty⟩)
  · rw [exec_some hr]
    suffices heffect : opcodeEffect s.cfg.stackCap i r = { r with pc := r.pc + 1 } by rw [heffect]
    cases i with
    | and | or | xor | add | sub | mul | div | mod | shl | shr => exact Run.binary_advance_of_underflow _ hshort
    | swp => rw [opcodeEffect_swp, swappedStack_of_length_lt_two hshort]
    | _ => simp at hi
  · rw [exec_dup hr, hempty, duplicatedStack, ← hempty]

/-! ## The run between its start and its stop -/

/-- Settles O6: the awaited event starts a run in the state of `vmReset`, whose latched values are the low 32 bits. -/
theorem evaluateStartsWithVmReset : Obligations.EvaluateStartsWithVmReset := by
  unfold Obligations.EvaluateStartsWithVmReset
  intro s plen t u rest hawaits hbound
  have hlatch (v : BitVec 64) : latchTime v = BitVec.ofNat 32 (v.toNat % 2 ^ 32) := by
    apply BitVec.eq_of_toNat_eq
    rw [latchTime_eq_ofNat, BitVec.toNat_ofNat, BitVec.toNat_ofNat, Nat.mod_mod]
  rw [step_awaits hawaits, ← hlatch, ← hlatch]
  exact startRun_bounded _ hbound t u

/-- Settles O29: a step of a run is its stop, which ends it, or one opcode, which acts on the run alone. -/
theorem eventsWaitForTheRun : Obligations.EventsWaitForTheRun := by
  unfold Obligations.EventsWaitForTheRun
  intro s s' r hr h
  refine ⟨(step_of_run hr h).1, fun hgoes => ?_⟩
  rcases step_cases h with ⟨hn, -⟩ | ⟨e, rest, hn, -⟩ | ⟨r₀, -, -, rfl⟩ | ⟨r₀, i, -, -, -, -, rfl⟩
  · simp [hr] at hn
  · simp [hr] at hn
  · exact absurd rfl hgoes
  · rfl

end Sys2Proof.Machine

/-! PROOFS. The invariant holds after reset and every step keeps it: the bounds of a run across one opcode, then the effect of
each event. -/

namespace Sys2Proof.Machine

/-! ## The run -/

/-- The bounds of one run: `pc <= PLEN <= 1024` and a depth within the capacity (R17, R20, R23). -/
def Run.Bounded (cap : Nat) (r : Run) : Prop :=
  r.pc.toNat ≤ r.plen.toNat ∧ r.plen.toNat ≤ maxProgramLen ∧ r.sp ≤ cap

theorem runBounded_of_none {s : State} (h : s.run = none) : s.runBounded := by
  intro r hr
  simp [h] at hr

theorem runBounded_of_some {s : State} {r : Run} (hr : s.run = some r) (h : r.Bounded s.cfg.stackCap) : s.runBounded := by
  intro r' hr'
  obtain rfl : r = r' := by simpa [hr] using hr'
  exact h

/-- A run starts within its bounds (R80). -/
theorem vmReset_bounded (cap : Nat) {plen : BitVec 11} (h : plen.toNat ≤ maxProgramLen) (t u : BitVec 64) :
    (vmReset plen t u).Bounded cap :=
  ⟨Nat.zero_le _, h, Nat.zero_le _⟩

/-- An opcode keeps the bounds of a run that is not at its stop: there `pc` is below `PLEN`, so that it neither passes it nor
wraps (R82, R83). -/
theorem opcodeEffect_bounded {cap : Nat} (i : Instr) {r : Run} (h : r.Bounded cap) (hgoes : r.atStop = false) :
    (opcodeEffect cap i r).Bounded cap := by
  obtain ⟨hpc, hplen, hsp⟩ := h
  refine ⟨?_, by rwa [opcodeEffect_plen], opcodeEffect_depth i hsp⟩
  rw [opcodeEffect_plen]
  by_cases hi : i = .endOp
  · rw [hi, opcodeEffect_endOp]
    exact hpc
  · have hne : r.pc.toNat ≠ r.plen.toNat := fun heq => by
      simp [(atStop_iff r).2 (.inr (BitVec.eq_of_toNat_eq heq))] at hgoes
    have hnext : (r.pc + 1).toNat = r.pc.toNat + 1 := by
      have hlt : r.pc.toNat + 1 < 2 ^ 11 := by have := r.plen.isLt; omega
      exact BitVec.toNat_add_of_lt hlt
    rw [opcodeEffect_pc cap hi, hnext]
    omega

/-! ## The events -/

/-- A slot written within the bounds of a boot-time write is readable, and the other slots stay so (R66, R170). -/
theorem slotsReadable_set {s : State} (h : s.slotsReadable) (slot : BitVec 5) {c : ClipSlot}
    (hc : c.len.toNat = 0 ∨ c.base + c.len.toNat ≤ s.cfg.clipMemSize) :
    ({ s with clipTab := s.clipTab.set slot.toNat (some c) slot.isLt } : State).slotsReadable := by
  intro k c' hk
  rw [slot_set] at hk
  split at hk
  · cases hk
    exact hc
  · exact h k c' hk

/-- A poll gives both stages of a line the same sample (R137). -/
theorem poll_historiesAgree {d : Decoder} (h : d.hA8 = d.hA32.extractLsb' 0 8 ∧ d.hB8 = d.hB32.extractLsb' 0 8)
    (a b : Bool) : (d.poll a b).2.hA8 = (d.poll a b).2.hA32.extractLsb' 0 8 ∧
      (d.poll a b).2.hB8 = (d.poll a b).2.hB32.extractLsb' 0 8 := by
  rw [poll_hA8, poll_hB8, poll_hA32, poll_hB32]
  exact ⟨shiftIn8_agrees h.1 a, shiftIn8_agrees h.2 b⟩

/-- Every event keeps the invariant. -/
theorem EventEffect.keeps_inv {s s' : State} {e : Event} (h : EventEffect s e s') (hinv : s.Inv) : s'.Inv := by
  cases h with
  | evaluate bounded => exact { hinv with runBounded := runBounded_of_some rfl (vmReset_bounded _ bounded _ _) }
  | fillSample loop =>
    have houtBuf := fillLoop_outBuf loop hinv.outBufWf (Nat.zero_add _).le
    exact { hinv with outBufWf := houtBuf }
  | buttonPoll => exact { hinv with }
  | readButtons => exact { hinv with }
  | setDebounce => exact { hinv with }
  | encoderPoll => exact { hinv with historiesAgree := poll_historiesAgree hinv.historiesAgree _ _ }
  | readEncoderDelta => exact { hinv with }
  | writeProg =>
    obtain ⟨hwf, hfits⟩ := hinv.progWf
    exact { hinv with progWf := ⟨Memory.wf_write hwf _ _, Memory.fits_write hfits (BitVec.isLt _) _⟩ }
  | writeSlot _ readable =>
    exact { hinv with slotsReadable := slotsReadable_set hinv.slotsReadable _ readable.2 }
  | writeClip _ inside =>
    obtain ⟨hwf, hfits⟩ := hinv.clipMemWf
    exact { hinv with clipMemWf := ⟨Memory.wf_write hwf _ _, Memory.fits_write hfits inside _⟩ }
  | reset => exact { hinv with runBounded := runBounded_of_none rfl, historiesAgree := ⟨rfl, rfl⟩ }

/-! ## The obligations -/

/-- Settles O25: an event keeps the invariant by its effect, the stop of a run leaves no run, and an opcode keeps the bounds. -/
theorem stepKeepsTheInvariant : Obligations.StepKeepsTheInvariant := by
  unfold Obligations.StepKeepsTheInvariant
  intro s s' hinv h
  rcases step_cases h with ⟨-, -, rfl⟩ | ⟨e, rest, -, -, -, hperf⟩ | ⟨r, -, -, rfl⟩ | ⟨r, i, hr, hgoes, -, -, rfl⟩
  · exact hinv
  · exact (perform_effect hperf).keeps_inv { hinv with }
  · exact { hinv with runBounded := runBounded_of_none rfl }
  · exact { hinv with runBounded := runBounded_of_some rfl (opcodeEffect_bounded i (hinv.runBounded r hr) hgoes) }

/-- A clip table with no record has no slot to read. -/
theorem slot_of_no_records {s : State} (h : s.clipTab = Vector.replicate nClips none) (k : BitVec 8) : s.slot k = none := by
  by_cases hk : nClips ≤ k.toNat
  · exact slot_outside s hk
  · simp [State.slot, h, Nat.lt_of_not_le hk]

/-- Settles O24: the memories are empty, no slot holds a record and no run is in progress; the rest is closed. -/
theorem resetMeetsTheInvariant : Obligations.ResetMeetsTheInvariant := by
  unfold Obligations.ResetMeetsTheInvariant
  exact {
    cfgWf := by decide
    progWf := ⟨rfl, rfl⟩
    clipMemWf := ⟨rfl, rfl⟩
    outBufWf := ⟨rfl, rfl⟩
    slotsReadable := fun k c hk => by simp [slot_of_no_records (s := State.reset) rfl k] at hk
    runBounded := runBounded_of_none rfl
    historiesAgree := ⟨rfl, rfl⟩ }

end Sys2Proof.Machine

/-! PROOFS. The power-on `reset`, the boot-time writes and the duties of the host. -/

namespace Sys2Proof.Machine

/-! ## Reset -/

theorem powerOnReset_first {s : State} (h : s.resetDone = false) : s.powerOnReset =
    .next { s with run := none, clip := .atReset, deb := .atReset, dec := .atReset,
                   resetDone := true, clipsFixed := false, replies := [] } := by
  simp [State.powerOnReset, h]

/-- A `reset` from the boot context is performed whether or not the machine has been reset (R167). -/
theorem step_reset {s : State} {rest : List (Context × Event)} (hr : s.run = none)
    (hp : s.pending = (.boot, .reset) :: rest) : step s = ({ s with pending := rest } : State).powerOnReset := by
  rw [step_event hr hp]
  simp [State.issue, Event.owner, State.perform]

/-- Settles O36: the first `reset` writes the registers' records of R43 and keeps the memories; a second is refused. -/
theorem resetSetsEveryRegister : Obligations.ResetSetsEveryRegister := by
  unfold Obligations.ResetSetsEveryRegister
  intro s rest hr hp
  rw [step_reset hr hp]
  refine ⟨fun hdone => ?_, fun hfirst => ⟨_, powerOnReset_first hfirst, ?_⟩⟩
  · simp [State.powerOnReset, hdone]
  · simp [ClipPlayer.atReset, Debouncer.atReset, Decoder.atReset, silence, debounceProg]

/-! ## The boot-time writes -/

/-- Settles O38: a write within its bounds is accepted, and the laws of the clip table and of a memory say what it leaves. -/
theorem bootWritesPopulateTheClips : Obligations.BootWritesPopulateTheClips := by
  unfold Obligations.BootWritesPopulateTheClips
  refine ⟨fun s slot base len rest hawaits hunfixed hbase hreadable => ?_,
    fun s addr v rest hinv hawaits hunfixed hinside => ?_⟩
  · refine ⟨s.clipTab.set slot.toNat (some { base := base, len := len }) slot.isLt, ?_, slot_set⟩
    rw [step_awaits hawaits]
    simp [State.perform, State.writeSlot, hunfixed, hbase, hreadable]
  · refine ⟨s.clipMem.write addr v, ?_, Memory.read_write_same hinv.clipMemWf.1 addr v,
      fun a ha => Memory.read_write_other s.clipMem v ha⟩
    rw [step_awaits hawaits]
    simp [State.perform, State.writeClip, hunfixed, hinside]

/-! ## The duties -/

/-- Settles O37: the step issues the oldest event, which checks the duties in turn. -/
theorem brokenDutiesAreRefused : Obligations.BrokenDutiesAreRefused := by
  unfold Obligations.BrokenDutiesAreRefused
  intro s c e rest hr hp
  rw [step_event hr hp]
  refine ⟨fun hearly he => ?_, fun hdone hc => ?_, fun hdone hc => ?_⟩
  · simp [State.issue, hearly, he]
  · simp [State.issue, hdone, hc]
  subst hc
  rw [issue_owner (s := { s with pending := rest }) hdone]
  refine ⟨?_, ?_, ?_, ?_, ?_, ?_⟩
  · rintro plen t u rfl hlong
    exact if_neg hlong.not_ge
  · rintro slot base len rfl hfixed
    exact if_pos hfixed
  · rintro addr v rfl hfixed
    exact if_pos hfixed
  · rintro slot base len rfl hunfixed hbad
    have hunreadable : ¬ (base < 2 ^ s.cfg.clipAddrW ∧ (len.toNat = 0 ∨ base + len.toNat ≤ s.cfg.clipMemSize)) := by
      omega
    simp only [State.perform, State.writeSlot, hunfixed, Bool.false_eq_true, if_false, if_neg hunreadable]
  · rintro addr v rfl hunfixed hout
    simp only [State.perform, State.writeClip, hunfixed, Bool.false_eq_true, if_false, if_neg hout.not_gt]
  · rintro k rfl hk hnone
    exact if_pos ⟨hk, hnone⟩

end Sys2Proof.Machine

/-! PROOFS. The ClipPlayer: the interpolation, one `clipStep`, a clip played to its end, and the call of `fillSample` as a list
of `clipStep`s written to the output buffer. -/

namespace Sys2Proof.Machine

/-! ## The interpolation -/

/-- A weighted mean of two numbers over five parts, rounded down, lies between them. -/
theorem mean_between (x y w : Nat) (hw : w ≤ 5) :
    min x y ≤ (x * (5 - w) + y * w) / 5 ∧ (x * (5 - w) + y * w) / 5 ≤ max x y := by
  interval_cases w <;> omega

/-- Settles O39: on integers the byte is the weighted sum divided by five. -/
theorem interpolationLiesBetweenItsSamples : Obligations.InterpolationLiesBetweenItsSamples := by
  unfold Obligations.InterpolationLiesBetweenItsSamples
  intro s0 s1 frac
  obtain ⟨hmin, hmax⟩ := mean_between s0.toNat s1.toNat frac.val (by omega)
  refine ⟨?_, ?_, ?_, ?_, ?_⟩
  · rwa [interpolate_toNat]
  · rwa [interpolate_toNat]
  · rintro rfl
    apply BitVec.eq_of_toNat_eq
    rw [interpolate_toNat]
    simp
  · rw [interpolate_toNat]
    exact Nat.div_mul_le_self _ 5
  · rw [interpolate_toNat]
    omega

/-! ## One `clipStep` -/

/-- The byte that a `clipStep` of a clip still playing returns: the interpolation of the samples at `pos` and `pos + 1`
(R118, R119). -/
def State.clipSample (s : State) (c : ClipSlot) : Byte :=
  interpolate (s.clipMem.read (c.base + s.clip.pos.toNat)) (s.clipMem.read (c.base + (s.clip.pos.toNat + 1))) s.clip.frac

/-- The phase of the ClipPlayer in output samples from the start of the clip (R120). -/
def ClipPlayer.phase (p : ClipPlayer) : Nat := p.pos.toNat * 5 + p.frac.val

/-- Before completion a `clipStep` returns its sample and moves the registers (R118). -/
theorem clipStep_playing {s : State} {k : BitVec 8} {c : ClipSlot} (hslots : s.slotsReadable) (hs : s.slot k = some c)
    (hplaying : s.clip.pos.toNat + 2 < c.len.toNat) :
    s.clipStep k = .ok (s.clipSample c, false, s.clip.produce (s.clipSample c)) := by
  have hread := hslots k c hs
  have hcomplete : clipComplete (some c) s.clip.pos = false := by simpa [clipComplete] using hplaying
  simp only [State.clipStep, hs, hcomplete, Bool.false_eq_true, if_false,
    clipRead_ok (s := s) c s.clip.pos.toNat (by omega), clipRead_ok (s := s) c (s.clip.pos.toNat + 1) (by omega),
    State.clipSample]

/-- A `clipStep` without a record, or at the end of its record, returns silence and resets the counters (R117, R118). -/
theorem clipStep_complete {s : State} {k : BitVec 8} (h : ∀ c, s.slot k = some c → c.len.toNat ≤ s.clip.pos.toNat + 2) :
    s.clipStep k = .ok (silence, true, .atReset) := by
  cases hs : s.slot k with
  | none => simp only [State.clipStep, hs, ClipPlayer.complete_eq]
  | some c =>
    have hcomplete : clipComplete (some c) s.clip.pos = true := by simpa [clipComplete] using h c hs
    simp only [State.clipStep, hs, hcomplete, if_true, ClipPlayer.complete_eq]

/-- An interpolated sample moves the phase by one, where the next position is no overflow (R120). -/
theorem produce_phase {p : ClipPlayer} (hpos : p.pos.toNat + 1 < 2 ^ 32) (out : Byte) :
    (p.produce out).phase = p.phase + 1 := by
  unfold ClipPlayer.phase
  rw [ClipPlayer.produce_pos, ClipPlayer.produce_frac]
  by_cases hlast : p.frac = 4
  · rw [if_pos hlast, if_pos hlast, BitVec.toNat_add_of_lt hpos, hlast]
    simp
    omega
  · have hnext : (p.frac + 1).val = p.frac.val + 1 := Fin.val_add_one_of_lt (lt_of_le_of_ne (Fin.le_last _) hlast)
    rw [if_neg hlast, if_neg hlast, hnext, Nat.add_assoc]

/-- Settles O40: before completion the step is `produce` of the sample read. -/
theorem clipStepAdvancesOneOutputSample : Obligations.ClipStepAdvancesOneOutputSample := by
  unfold Obligations.ClipStepAdvancesOneOutputSample
  intro s k c hinv hs hplaying
  have hpos : s.clip.pos.toNat + 1 < 2 ^ 32 := by have := c.len.isLt; omega
  exact ⟨_, clipStep_playing hinv.slotsReadable hs hplaying, ClipPlayer.produce_last .., produce_phase hpos _⟩

/-! ## A clip played to its end -/

/-- Up to the phase `(L - 2) × 5` every `clipStep` returns a sample with `done` 0 and moves the phase by one (R122). -/
theorem clipSteps_playing {s : State} {k : BitVec 8} {c : ClipSlot} {n : Nat} (hslots : s.slotsReadable)
    (hs : s.slot k = some c) (hleft : s.clip.phase + n ≤ (c.len.toNat - 2) * 5) :
    ∃ outs p, State.clipSteps k n s = .ok (outs, { s with clip := p }) ∧ outs.length = n ∧
      (∀ o ∈ outs, o.2 = false) ∧ p.phase = s.clip.phase + n := by
  induction n generalizing s with
  | zero => exact ⟨[], s.clip, rfl, rfl, by simp, rfl⟩
  | succ n ih =>
    have hplaying : s.clip.pos.toNat + 2 < c.len.toNat := by unfold ClipPlayer.phase at hleft; omega
    have hpos : s.clip.pos.toNat + 1 < 2 ^ 32 := by have := c.len.isLt; omega
    have hphase := produce_phase hpos (s.clipSample c)
    obtain ⟨outs, p, hsteps, hlen, hgoing, hp⟩ := ih (s := { s with clip := s.clip.produce (s.clipSample c) }) hslots hs
      (by rw [hphase]; omega)
    refine ⟨(s.clipSample c, false) :: outs, p, ?_, by rw [List.length_cons, hlen],
      List.forall_mem_cons.2 ⟨rfl, hgoing⟩, by rw [hp, hphase]; omega⟩
    rw [State.clipSteps, clipStep_playing hslots hs hplaying]
    simp only [hsteps]

/-- One more `clipStep` after a list of them. -/
theorem clipSteps_snoc {k : BitVec 8} {n : Nat} {s t : State} {outs : List (Byte × Bool)} {b : Byte} {d : Bool}
    {p : ClipPlayer} (hsteps : State.clipSteps k n s = .ok (outs, t)) (hlast : t.clipStep k = .ok (b, d, p)) :
    State.clipSteps k (n + 1) s = .ok (outs ++ [(b, d)], { t with clip := p }) := by
  induction n generalizing s outs with
  | zero =>
    cases hsteps
    simp [State.clipSteps, hlast]
  | succ n ih =>
    rw [State.clipSteps] at hsteps ⊢
    split at hsteps
    · cases hsteps
    · split at hsteps
      · cases hsteps
      · rename_i hrest
        cases hsteps
        simp only [ih hrest, List.cons_append]

/-- Settles O43: the samples up to the phase `(L - 2) × 5`, where the next step finds the clip complete. -/
theorem clipPlaysItsExactCount : Obligations.ClipPlaysItsExactCount := by
  unfold Obligations.ClipPlaysItsExactCount
  intro s k c hinv hs hlen hpos hfrac
  have hstart : s.clip.phase = 0 := by simp [ClipPlayer.phase, hpos, hfrac]
  obtain ⟨outs, p, hsteps, hcount, hgoing, hp⟩ := clipSteps_playing (n := (c.len.toNat - 2) * 5) hinv.slotsReadable hs
    (by omega)
  have hend : c.len.toNat ≤ p.pos.toNat + 2 := by unfold ClipPlayer.phase at hp hstart; omega
  have hlast : ({ s with clip := p } : State).clipStep k = .ok (silence, true, .atReset) :=
    clipStep_complete fun c' hc' => by
      obtain rfl : c = c' := by simpa using hs.symm.trans hc'
      exact hend
  exact ⟨outs, _, clipSteps_snoc hsteps hlast, hcount, hgoing, rfl⟩

/-! ## Consecutive bytes of a memory -/

/-- A list of bytes written at consecutive addresses, the first one at `j`. -/
def Memory.fill (m : Memory) (j : Nat) : List Byte → Memory
  | [] => m
  | b :: bytes => (m.write j b).fill (j + 1) bytes

theorem Memory.read_fill_outside {a j : Nat} (m : Memory) (bytes : List Byte) (h : a < j ∨ j + bytes.length ≤ a) :
    (m.fill j bytes).read a = m.read a := by
  induction bytes generalizing m j with
  | nil => rfl
  | cons b bytes ih =>
    rw [List.length_cons] at h
    rw [Memory.fill, ih _ (by omega), Memory.read_write_other m b (by omega)]

theorem Memory.read_fill_inside {m : Memory} (hwf : m.wf = true) (j : Nat) {bytes : List Byte} {i : Nat}
    (hi : i < bytes.length) : (m.fill j bytes).read (j + i) = bytes[i] := by
  induction bytes generalizing m j i with
  | nil => simp at hi
  | cons b bytes ih =>
    rw [Memory.fill]
    cases i with
    | zero => rw [Memory.read_fill_outside _ _ (by omega), Nat.add_zero, Memory.read_write_same hwf, List.getElem_cons_zero]
    | succ i =>
      rw [List.getElem_cons_succ, ← ih (Memory.wf_write hwf j b) (j + 1) (by simpa using hi)]
      congr 1
      omega

/-! ## The call of `fillSample` -/

/-- The `clipStep`s of a call with room for `n` bytes, from the registers `p`: what they return, the registers left, and
whether one completed (R121). `fillLoop_of_plays` ties it to the model. -/
inductive Plays (k : BitVec 8) (s : State) : Nat → ClipPlayer → List (Byte × Bool) → ClipPlayer → Bool → Prop where
  | full {p : ClipPlayer} : Plays k s 0 p [] p false
  | completes {n : Nat} {p q : ClipPlayer} {b : Byte} (last : ({ s with clip := p } : State).clipStep k = .ok (b, true, q)) :
      Plays k s (n + 1) p [(b, true)] q true
  | goesOn {n : Nat} {p p' q : ClipPlayer} {b : Byte} {outs : List (Byte × Bool)} {done : Bool}
      (first : ({ s with clip := p } : State).clipStep k = .ok (b, false, p')) (later : Plays k s n p' outs q done) :
      Plays k s (n + 1) p ((b, false) :: outs) q done

/-- With readable slots a call takes its `clipStep`s without a fault (R66). -/
theorem exists_plays {s : State} (hslots : s.slotsReadable) (k : BitVec 8) (n : Nat) (p : ClipPlayer) :
    ∃ outs q done, Plays k s n p outs q done := by
  induction n generalizing p with
  | zero => exact ⟨[], p, false, .full⟩
  | succ n ih =>
    obtain ⟨⟨b, d, p'⟩, hstep⟩ := clipStep_ok (s := { s with clip := p }) hslots k
    cases d with
    | true => exact ⟨[(b, true)], p', true, .completes hstep⟩
    | false =>
      obtain ⟨outs, q, done, hlater⟩ := ih p'
      exact ⟨(b, false) :: outs, q, done, .goesOn hstep hlater⟩

/-- The bytes a call writes: those its `clipStep`s returned, then the padding (R121, R124). -/
def paddedBytes (n : Nat) (outs : List (Byte × Bool)) : List Byte :=
  outs.map (·.1) ++ List.replicate (n - outs.length) silence

@[simp] theorem paddedBytes_cons (n : Nat) (o : Byte × Bool) (outs : List (Byte × Bool)) :
    paddedBytes (n + 1) (o :: outs) = o.1 :: paddedBytes n outs := by
  simp [paddedBytes]

theorem paddedBytes_getElem {n j : Nat} {outs : List (Byte × Bool)} (hj : j < (paddedBytes n outs).length) :
    (paddedBytes n outs)[j] = ((outs[j]?).map (·.1)).getD silence := by
  by_cases hout : j < outs.length
  · simp [paddedBytes, hout]
  · simp [paddedBytes, List.getElem_append_right, Nat.le_of_not_lt hout]

section

variable {k : BitVec 8} {s : State} {n : Nat} {p q : ClipPlayer} {outs : List (Byte × Bool)} {done : Bool}

theorem Plays.clipSteps_eq (h : Plays k s n p outs q done) :
    State.clipSteps k outs.length { s with clip := p } = .ok (outs, { s with clip := q }) := by
  induction h with
  | full => rfl
  | completes last => simp [State.clipSteps, last]
  | goesOn first later ih => simp [State.clipSteps, first, ih]

theorem Plays.length_le (h : Plays k s n p outs q done) : outs.length ≤ n := by
  induction h with
  | full => exact Nat.le_refl 0
  | completes => exact Nat.succ_le_succ (Nat.zero_le _)
  | goesOn _ _ ih => exact Nat.succ_le_succ ih

/-- Only the last `clipStep` of a call can complete. -/
theorem Plays.earlier_go_on (h : Plays k s n p outs q done) : ∀ o ∈ outs.dropLast, o.2 = false := by
  induction h with
  | full | completes => simp
  | @goesOn _ _ _ _ b outs _ _ _ ih =>
    cases outs with
    | nil => simp
    | cons o outs => exact List.forall_mem_cons.2 ⟨rfl, ih⟩

theorem Plays.done_iff (h : Plays k s n p outs q done) : done = true ↔ ∃ o ∈ outs, o.2 = true := by
  induction h with
  | full | completes => simp
  | goesOn _ _ ih => simpa using ih

/-- A call that does not complete fills the whole buffer with its own bytes. -/
theorem Plays.length_eq (h : Plays k s n p outs q done) (hgoing : done = false) : outs.length = n := by
  induction h with
  | full => rfl
  | completes => cases hgoing
  | goesOn _ _ ih => exact congrArg (· + 1) (ih hgoing)

theorem Plays.paddedBytes_length (h : Plays k s n p outs q done) : (paddedBytes n outs).length = n := by
  have := h.length_le
  simp [paddedBytes]
  omega

end

/-- After a completion the loop pads what is left of the buffer and keeps every register (R121). -/
theorem fillLoop_padding (k : BitVec 8) (n j : Nat) (s : State) :
    fillLoop k n j true s = .ok (true, { s with outBuf := s.outBuf.fill j (List.replicate n silence) }) := by
  induction n generalizing j s with
  | zero => rfl
  | succ n ih => rw [fillLoop, ih]; rfl

/-- The loop of a call takes its `clipStep`s and writes their bytes and the padding (R121); neither what the buffer holds nor
the pending events have a part in them. -/
theorem fillLoop_of_plays {k : BitVec 8} {s : State} {n j : Nat} {p q : ClipPlayer} {outs : List (Byte × Bool)}
    {done : Bool} (h : Plays k s n p outs q done) (rest : List (Context × Event)) (m : Memory) :
    fillLoop k n j false { s with pending := rest, clip := p, outBuf := m } =
      .ok (done, { s with pending := rest, clip := q, outBuf := m.fill j (paddedBytes n outs) }) := by
  induction h generalizing j m with
  | full => rfl
  | @completes n p q b last =>
    have hstep : ({ s with pending := rest, clip := p, outBuf := m } : State).clipStep k = .ok (b, true, q) := last
    rw [fillLoop, hstep, paddedBytes_cons]
    exact fillLoop_padding k n (j + 1) _
  | @goesOn n p p' q b outs done first later ih =>
    have hstep : ({ s with pending := rest, clip := p, outBuf := m } : State).clipStep k = .ok (b, false, p') := first
    rw [fillLoop, hstep, paddedBytes_cons]
    exact ih (m.write j b)

/-- A call for a populated slot, or for no slot, answers by its loop (R121, R123). -/
theorem fillSample_of_fillLoop {s t : State} {k : BitVec 8} {done : Bool} (hk : nClips ≤ k.toNat ∨ s.slot k ≠ none)
    (hloop : fillLoop k s.cfg.bufferSize 0 false s = .ok (done, t)) :
    s.fillSample k = .next { t with clipsFixed := true, replies := .filled done :: t.replies } := by
  have hpopulated : ¬ (k.toNat < nClips ∧ s.slot k = none) := fun ⟨hlt, hnone⟩ => hk.elim hlt.not_ge (absurd hnone)
  rw [State.fillSample, if_neg hpopulated, hloop]

/-- The step of an awaited `fillSample` of a populated slot, or of no slot, by the `clipStep`s it takes (R121, R123). -/
theorem step_fillSample {s : State} {k : BitVec 8} {rest : List (Context × Event)} {outs : List (Byte × Bool)}
    {q : ClipPlayer} {done : Bool} (hawaits : s.awaits (.fillSample k) rest) (hk : nClips ≤ k.toNat ∨ s.slot k ≠ none)
    (h : Plays k s s.cfg.bufferSize s.clip outs q done) :
    step s = .next { s with
      pending := rest, clip := q, outBuf := s.outBuf.fill 0 (paddedBytes s.cfg.bufferSize outs), clipsFixed := true
      replies := .filled done :: s.replies } :=
  (step_awaits hawaits).trans
    (fillSample_of_fillLoop (s := { s with pending := rest }) hk (fillLoop_of_plays h rest s.outBuf))

/-- What the buffer holds after a call: the bytes returned, then silence, and beyond `BUFFER_SIZE` what it held (R49, R121). -/
theorem Plays.read_fill {k : BitVec 8} {s : State} {n : Nat} {p q : ClipPlayer} {outs : List (Byte × Bool)} {done : Bool}
    (h : Plays k s n p outs q done) {m : Memory} (hwf : m.wf = true) :
    (∀ j, j < n → (m.fill 0 (paddedBytes n outs)).read j = ((outs[j]?).map (·.1)).getD silence) ∧
      ∀ j, n ≤ j → (m.fill 0 (paddedBytes n outs)).read j = m.read j := by
  have hlen := h.paddedBytes_length
  refine ⟨fun j hj => ?_, fun j hj => Memory.read_fill_outside _ _ (by omega)⟩
  have hread := Memory.read_fill_inside hwf 0 (hj.trans_eq hlen.symm)
  rwa [Nat.zero_add, paddedBytes_getElem] at hread

/-- Settles O42: the `clipStep`s of the call, as `Plays` lists them. -/
theorem fillSampleIsClipStepsThenPadding : Obligations.FillSampleIsClipStepsThenPadding := by
  unfold Obligations.FillSampleIsClipStepsThenPadding
  intro s k rest hinv hawaits hk
  obtain ⟨outs, q, done, hplays⟩ := exists_plays hinv.slotsReadable k s.cfg.bufferSize s.clip
  obtain ⟨hinside, houtside⟩ := hplays.read_fill hinv.outBufWf.1
  exact ⟨outs, { s with clip := q }, done, _, hplays.clipSteps_eq, hplays.earlier_go_on, hplays.length_le,
    hplays.done_iff, hplays.length_eq, step_fillSample hawaits hk hplays, hinside, houtside⟩

theorem one_le_bufferSize {cfg : Config} (h : cfg.wf = true) : 1 ≤ cfg.bufferSize := by
  simp only [Config.wf, Bool.and_eq_true, decide_eq_true_eq] at h
  omega

/-- Settles O41: the call's first `clipStep` completes, so that its list is that one byte of silence. -/
theorem completeClipFillsSilence : Obligations.CompleteClipFillsSilence := by
  unfold Obligations.CompleteClipFillsSilence
  intro s k rest hinv hawaits hcomplete
  have hstep : s.clipStep k = .ok (silence, true, .atReset) := clipStep_complete fun c hc => by
    rcases hcomplete with hk | ⟨c', hc', hend⟩
    · simp [slot_outside s hk] at hc
    · obtain rfl : c' = c := by simpa using hc'.symm.trans hc
      exact hend
  have hk : nClips ≤ k.toNat ∨ s.slot k ≠ none := hcomplete.imp_right fun ⟨c, hc, _⟩ => by simp [hc]
  have hplays : Plays k s s.cfg.bufferSize s.clip [(silence, true)] .atReset true := by
    obtain ⟨n, hn⟩ := Nat.exists_eq_add_of_le' (one_le_bufferSize hinv.cfgWf)
    rw [hn]
    exact .completes hstep
  obtain ⟨hinside, houtside⟩ := hplays.read_fill hinv.outBufWf.1
  refine ⟨_, step_fillSample hawaits hk hplays, fun j hj => ?_, houtside⟩
  rw [hinside j hj]
  cases j <;> rfl

end Sys2Proof.Machine

/-! PROOFS. The inputs: the button mask bit by bit, the histories of the decoder after a list of polls, and the claims about
steps that settled lines emit. -/

namespace Sys2Proof.Machine

/-! ## The button mask -/

/-- One term of the mask has at most its own bit, set exactly when its counter is above 0 (R129). -/
@[simp] theorem pressedBit_getLsbD (c : Byte) (bit j : Nat) :
    (pressedBit c bit).getLsbD j = (decide (0 < c.toNat) && decide (j = bit) && decide (j < 8)) := by
  unfold pressedBit
  split
  · rename_i hzero
    simp [hzero]
  · rename_i hne
    have hpos : 0 < c.toNat := Nat.pos_of_ne_zero fun h => hne (BitVec.eq_of_toNat_eq h)
    rw [BitVec.getLsbD_shiftLeft, BitVec.getLsbD_one, decide_eq_true hpos]
    by_cases hj : j = bit
    · simp [hj]
    · simp [hj]
      omega

section

variable {whammyBit : Nat} (cnt : Vector Byte nButtons)

/-- Bit 0 is the strum and bits 1 to 5 are the frets (R33). -/
theorem buttonMask_getLsbD_fret (hlow : 6 ≤ whammyBit) {i : Fin 7} (hi : i.val < 6) :
    (buttonMask whammyBit cnt).getLsbD i = decide (0 < cnt[i].toNat) := by
  have hlever : i.val ≠ whammyBit := by omega
  simp only [buttonMask, BitVec.getLsbD_or, pressedBit_getLsbD]
  fin_cases i <;> simp_all

/-- Bit `WHAMMY_BIT` is the lever (R33, decision D23). -/
theorem buttonMask_getLsbD_lever (hlow : 6 ≤ whammyBit) (hhigh : whammyBit < 8) :
    (buttonMask whammyBit cnt).getLsbD whammyBit = decide (0 < cnt[6].toNat) := by
  have hfret : ∀ j < 6, whammyBit ≠ j := by omega
  simp only [buttonMask, BitVec.getLsbD_or, pressedBit_getLsbD, hhigh]
  simp [hfret]

/-- Every other bit is 0 (R33). -/
theorem buttonMask_getLsbD_unused {j : Nat} (hj : 6 ≤ j) (hne : j ≠ whammyBit) :
    (buttonMask whammyBit cnt).getLsbD j = false := by
  have hfret : ∀ i < 6, j ≠ i := by omega
  simp only [buttonMask, BitVec.getLsbD_or, pressedBit_getLsbD]
  simp [hfret, hne]

end

/-- Settles O45: the awaited event returns the mask, whose bits the three lemmas above give. -/
theorem readButtonsReturnsPressedMask : Obligations.ReadButtonsReturnsPressedMask := by
  unfold Obligations.ReadButtonsReturnsPressedMask
  intro s rest hwf hawaits
  obtain ⟨hlow, hhigh⟩ : 6 ≤ s.cfg.whammyBit ∧ s.cfg.whammyBit < 8 := by
    simp only [Config.wf, Bool.and_eq_true, decide_eq_true_eq] at hwf
    omega
  refine ⟨_, step_awaits hawaits, fun i hi => ?_, ?_, fun j hj hne => buttonMask_getLsbD_unused _ hj hne⟩
  · rw [buttonMask_getLsbD_fret _ hlow hi, decide_eq_true_iff]
  · rw [buttonMask_getLsbD_lever _ hlow hhigh, decide_eq_true_iff]

/-! ## The step of a poll -/

/-- A poll steps on a high A exactly when it is accepted after a low settled level, and the sample of B is the direction
(R138, R139). -/
theorem poll_step_eq (d : Decoder) (a b : Bool) : (d.poll a b).1 =
    if (d.poll a b).2.accepts && a && !d.sA then if b then .plus else .minus else .zero := by
  rw [poll_step, poll_accepts]
  cases hacc : (d.shift a b).accepts with
  | true =>
    rw [stepOf_of_accepted hacc]
    simp only [Decoder.shift_hA32, Decoder.shift_hB32, Decoder.shift_sA, shiftIn32_getLsbD, if_true, Bool.true_and]
  | false => simp [stepOf_of_rejected hacc]

/-- A rejected poll emits no step (R138). -/
theorem poll_step_of_rejected {d : Decoder} {a b : Bool} (h : (d.poll a b).2.accepts = false) :
    (d.poll a b).1 = .zero := by
  simp [poll_step_eq, h]

/-- A poll with A low emits no step (R139). -/
theorem poll_step_of_low (d : Decoder) (b : Bool) : (d.poll false b).1 = .zero := by
  simp [poll_step_eq]

/-- A poll after a settled high A emits no step (R139). -/
theorem poll_step_of_settled_high {d : Decoder} (h : d.sA = true) (a b : Bool) : (d.poll a b).1 = .zero := by
  simp [poll_step_eq, h]

/-! ## The histories after a list of polls -/

/-- The two histories of a line that is settled hold its level throughout (R138). -/
theorem settled_iff_fill {h32 : BitVec 32} {h8 : BitVec 8} :
    (h32 = 0#32 ∧ h8 = 0#8 ∨ h32 = 0xFFFFFFFF#32 ∧ h8 = 0xFF#8) ↔ ∃ level, h32 = .fill 32 level ∧ h8 = .fill 8 level := by
  rw [Bool.exists_bool]
  exact Iff.rfl

/-- A poll is accepted exactly when both lines are settled (R138). -/
theorem accepts_iff_fill (d : Decoder) : d.accepts = true ↔
    ∃ a b, d.hA32 = .fill 32 a ∧ d.hA8 = .fill 8 a ∧ d.hB32 = .fill 32 b ∧ d.hB8 = .fill 8 b := by
  rw [accepts_iff, settled_iff_fill, settled_iff_fill]
  constructor
  · rintro ⟨⟨a, hA32, hA8⟩, b, hB32, hB8⟩
    exact ⟨a, b, hA32, hA8, hB32, hB8⟩
  · rintro ⟨a, b, hA32, hA8, hB32, hB8⟩
    exact ⟨⟨a, hA32, hA8⟩, b, hB32, hB8⟩

section

variable {w : Nat} {shift : BitVec w → Bool → BitVec w}
  (hshift : ∀ h sample i, (shift h sample).getLsbD i = if i = 0 then sample else decide (i < w) && h.getLsbD (i - 1))
include hshift

/-- A register that takes each sample in bit 0 and moves the others up holds the samples, the newest in bit 0, over what it
held before (R137). -/
theorem foldl_shift_getLsbD (samples : List Bool) (h : BitVec w) {i : Nat} (hi : i < w) :
    (samples.foldl shift h).getLsbD i = (samples.reverse[i]?).getD (h.getLsbD (i - samples.length)) := by
  induction samples generalizing h with
  | nil => rfl
  | cons sample samples ih =>
    rw [List.foldl_cons, ih, List.reverse_cons, hshift]
    rcases Nat.lt_trichotomy i samples.length with hlt | rfl | hgt
    · rw [List.getElem?_append_left (by simpa using hlt)]
      simp [hlt]
    · simp
    · have hout : samples.reverse[i]? = none := List.getElem?_eq_none (by simpa using hgt.le)
      have hout' : (samples.reverse ++ [sample])[i]? = none := List.getElem?_eq_none (by simpa using hgt)
      have hbit : i - samples.length ≠ 0 := by omega
      have hw : i - samples.length < w := by omega
      simp only [hout, hout', Option.getD_none, if_neg hbit, hw, decide_true, Bool.true_and, List.length_cons]
      rfl

/-- Once it has taken as many equal samples as it has bits, a register holds nothing else. -/
theorem foldl_shift_replicate {n : Nat} (hn : w ≤ n) (sample : Bool) (h : BitVec w) :
    (List.replicate n sample).foldl shift h = .fill w sample := by
  apply BitVec.eq_of_getLsbD_eq
  intro i hi
  rw [foldl_shift_getLsbD hshift _ _ hi, BitVec.getLsbD_fill, List.reverse_replicate,
    List.getElem?_replicate_of_lt (hi.trans_le hn)]
  simp [hi]

/-- A register of one level throughout took that level with each of its newest samples. -/
theorem eq_of_foldl_shift_eq_fill {samples : List Bool} (hlen : samples.length ≤ w) {h : BitVec w} {level : Bool}
    (hfill : samples.foldl shift h = .fill w level) : ∀ sample ∈ samples, sample = level := by
  intro sample hmem
  obtain ⟨i, hi, rfl⟩ := List.getElem_of_mem (List.mem_reverse.2 hmem)
  have hw : i < w := by simp at hi; omega
  have hbit := foldl_shift_getLsbD hshift samples h hw
  simpa [hfill, BitVec.getLsbD_fill, hw, List.getElem?_eq_getElem hi] using hbit.symm

end

/-- After a list of polls each history has taken the samples of its line (R137). -/
theorem pollAll_histories (d : Decoder) (polls : List (Bool × Bool)) :
    (d.pollAll polls).2.hA32 = (polls.map (·.1)).foldl shiftIn32 d.hA32 ∧
    (d.pollAll polls).2.hA8 = (polls.map (·.1)).foldl shiftIn8 d.hA8 ∧
    (d.pollAll polls).2.hB32 = (polls.map (·.2)).foldl shiftIn32 d.hB32 ∧
    (d.pollAll polls).2.hB8 = (polls.map (·.2)).foldl shiftIn8 d.hB8 := by
  induction polls generalizing d with
  | nil => exact ⟨rfl, rfl, rfl, rfl⟩
  | cons p polls ih => simp [Decoder.pollAll, ih]

/-- The registers after one more poll. -/
theorem pollAll_snoc_registers (d : Decoder) (polls : List (Bool × Bool)) (a b : Bool) :
    (d.pollAll (polls ++ [(a, b)])).2 = ((d.pollAll polls).2.poll a b).2 := by
  rw [pollAll_append]
  rfl

/-! ## Unsettled lines -/

/-- After an accepted poll, of up to 32 polls up to it each sampled the same levels (R138). -/
theorem eq_of_pollAll_accepts {d : Decoder} {polls : List (Bool × Bool)} (hlen : polls.length ≤ 32)
    (hacc : (d.pollAll polls).2.accepts = true) : ∃ level, ∀ p ∈ polls, p = level := by
  obtain ⟨a, b, hA, -, hB, -⟩ := (accepts_iff_fill _).1 hacc
  obtain ⟨hA32, -, hB32, -⟩ := pollAll_histories d polls
  rw [hA32] at hA
  rw [hB32] at hB
  have hAs := eq_of_foldl_shift_eq_fill shiftIn32_getLsbD (by simpa using hlen) hA
  have hBs := eq_of_foldl_shift_eq_fill shiftIn32_getLsbD (by simpa using hlen) hB
  exact ⟨(a, b), fun p hp => Prod.ext (hAs _ (List.mem_map_of_mem hp)) (hBs _ (List.mem_map_of_mem hp))⟩

/-- Settles O50: a step needs an acceptance, and an accepted poll and the 31 before it sampled the same levels. -/
theorem unsettledLinesEmitNoStep : Obligations.UnsettledLinesEmitNoStep := by
  unfold Obligations.UnsettledLinesEmitNoStep
  intro d before a b hlen h
  have hacc : (d.pollAll (before ++ [(a, b)])).2.accepts = true := by
    rw [pollAll_snoc_registers]
    rcases h with hstep | hacc
    · by_contra hrej
      exact hstep (poll_step_of_rejected (by simpa using hrej))
    · exact hacc
  obtain ⟨level, hlevel⟩ := eq_of_pollAll_accepts (by simp [hlen]) hacc
  intro p hp
  exact (hlevel p (List.mem_append_left _ hp)).trans (hlevel (a, b) (by simp)).symm

/-! ## A clean rise -/

/-- From the 32nd poll of constant lines on each history holds its line's level throughout (R137). -/
theorem pollAll_replicate_histories (d : Decoder) (a b : Bool) {n : Nat} (hn : 32 ≤ n) :
    (d.pollAll (List.replicate n (a, b))).2.hA32 = .fill 32 a ∧ (d.pollAll (List.replicate n (a, b))).2.hA8 = .fill 8 a ∧
    (d.pollAll (List.replicate n (a, b))).2.hB32 = .fill 32 b ∧ (d.pollAll (List.replicate n (a, b))).2.hB8 = .fill 8 b := by
  have hn8 : 8 ≤ n := by omega
  obtain ⟨hA32, hA8, hB32, hB8⟩ := pollAll_histories d (List.replicate n (a, b))
  rw [hA32, hA8, hB32, hB8, List.map_replicate, List.map_replicate]
  exact ⟨foldl_shift_replicate shiftIn32_getLsbD hn a _, foldl_shift_replicate shiftIn8_getLsbD hn8 a _,
    foldl_shift_replicate shiftIn32_getLsbD hn b _, foldl_shift_replicate shiftIn8_getLsbD hn8 b _⟩

/-- From the 32nd poll of constant lines on every poll is accepted (R138). -/
theorem pollAll_replicate_accepts (d : Decoder) (a b : Bool) {n : Nat} (hn : 32 ≤ n) :
    (d.pollAll (List.replicate n (a, b))).2.accepts = true :=
  (accepts_iff_fill _).2 ⟨a, b, pollAll_replicate_histories d a b hn⟩

/-- From the 32nd poll of constant lines on the settled A level is A's (R140). -/
theorem pollAll_replicate_sA (d : Decoder) (a b : Bool) {n : Nat} (hn : 32 ≤ n) :
    (d.pollAll (List.replicate n (a, b))).2.sA = a := by
  obtain ⟨m, rfl⟩ := Nat.exists_eq_add_of_le' (Nat.one_le_of_lt hn)
  have hacc := pollAll_replicate_accepts d a b hn
  rw [List.replicate_succ', pollAll_snoc_registers] at hacc ⊢
  rw [poll_sA, if_pos hacc]

/-- While A is low no poll emits a step. -/
theorem pollAll_low_steps (d : Decoder) (b : Bool) (n : Nat) :
    (d.pollAll (List.replicate n (false, b))).1 = List.replicate n .zero := by
  induction n generalizing d with
  | zero => rfl
  | succ n ih => simp [List.replicate_succ, Decoder.pollAll, ih, poll_step_of_low]

/-- After a settled high level of A, high polls emit no step. -/
theorem pollAll_high_steps {d : Decoder} (h : d.sA = true) (b : Bool) (n : Nat) :
    (d.pollAll (List.replicate n (true, b))).1 = List.replicate n .zero := by
  induction n generalizing d with
  | zero => rfl
  | succ n ih => simp [List.replicate_succ, Decoder.pollAll, ih, poll_step_of_settled_high, h]

/-- A high poll is rejected while the sample of 31 polls before it was low (R138). -/
theorem poll_rejected_of_old_low {d : Decoder} (h : d.hA32.getLsbD 30 = false) (b : Bool) :
    (d.poll true b).2.accepts = false := by
  by_contra hacc
  obtain ⟨a, -, hA, -⟩ := (accepts_iff_fill _).1 (by simpa using hacc)
  rw [poll_hA32] at hA
  have hnew := shiftIn32_getLsbD d.hA32 true 0
  have hold := shiftIn32_getLsbD d.hA32 true 31
  rw [hA, BitVec.getLsbD_fill] at hnew hold
  simp_all

/-- While the samples that `n` high polls move out are low, none of them is accepted: no step, and the settled level stays. -/
theorem pollAll_rising {d : Decoder} {n : Nat} (hn : n ≤ 31) (b : Bool)
    (hlow : ∀ i, 31 - n ≤ i → i < 31 → d.hA32.getLsbD i = false) :
    (d.pollAll (List.replicate n (true, b))).1 = List.replicate n .zero ∧
      (d.pollAll (List.replicate n (true, b))).2.sA = d.sA := by
  induction n generalizing d with
  | zero => exact ⟨rfl, rfl⟩
  | succ n ih =>
    have hrej := poll_rejected_of_old_low (hlow 30 (by omega) (by omega)) b
    have hshifted : ∀ i, 31 - n ≤ i → i < 31 → (d.poll true b).2.hA32.getLsbD i = false := fun i hi hi' => by
      rw [poll_hA32, shiftIn32_getLsbD, if_neg (by omega), hlow (i - 1) (by omega) (by omega), Bool.and_false]
    obtain ⟨hsteps, hsA⟩ := ih (by omega) hshifted
    rw [poll_sA, hrej] at hsA
    simp [List.replicate_succ, Decoder.pollAll, hsteps, hsA, poll_step_of_rejected hrej]

/-- From A settled low, of the high polls the 32nd alone emits a step, by the level of B (R143). -/
theorem pollAll_rise_steps {d : Decoder} (hA : d.hA32 = .fill 32 false) (hsA : d.sA = false) (b : Bool) (m : Nat) :
    (d.pollAll (List.replicate (32 + m) (true, b))).1 =
      List.replicate 31 .zero ++ (if b then .plus else .minus) :: List.replicate m .zero := by
  obtain ⟨hrising, hkept⟩ := pollAll_rising (d := d) (n := 31) le_rfl b fun i _ _ => by
    rw [hA, BitVec.getLsbD_fill, Bool.false_and]
  have hlast := pollAll_snoc_registers d (List.replicate 31 (true, b)) true b
  rw [← List.replicate_succ'] at hlast
  have hacc := pollAll_replicate_accepts d true b (n := 32) le_rfl
  have hhigh := pollAll_replicate_sA d true b (n := 32) le_rfl
  rw [hlast] at hacc hhigh
  have hpolls : List.replicate (32 + m) (true, b) =
      List.replicate 31 (true, b) ++ (true, b) :: List.replicate m (true, b) := by
    rw [← List.replicate_succ, ← List.replicate_add]
    congr 1
    omega
  rw [hpolls, pollAll_append, hrising, Decoder.pollAll, pollAll_high_steps hhigh, poll_step_eq, hacc, hkept, hsA]
  rfl

/-- Settles O49: the low polls emit nothing and settle A low, and the high polls then emit the one step. -/
theorem cleanRiseEmitsOneStep : Obligations.CleanRiseEmitsOneStep := by
  unfold Obligations.CleanRiseEmitsOneStep
  intro d b k m
  have hlong : 32 ≤ 32 + k := Nat.le_add_right ..
  obtain ⟨hA, -⟩ := pollAll_replicate_histories d false b hlong
  have hsA := pollAll_replicate_sA d false b hlong
  have hzeros : 63 + k = 32 + k + 31 := by omega
  rw [pollAll_append, pollAll_low_steps, pollAll_rise_steps hA hsA, hzeros, List.replicate_add (32 + k), List.append_assoc]

end Sys2Proof.Machine
